-- ==== Sys2Proof/Word.lean ====
section
/-!
DEFINITION. The machine's words (00_scope.md R5, R6): bytes of 8 bits, words and addresses of 16 bits, and the
zero extension with which a narrower unsigned value enters a wider one. Nothing in this machine is signed.
-/

namespace Sys2Proof

/-- An unsigned 8-bit value: a general register, a timer, a memory cell (10_state.md R21, R27, R30). -/
abbrev Byte := BitVec 8

/-- An unsigned 16-bit value: an instruction word, `I`, `PC`, a stack entry (10_state.md R23, R24, R26, R29). -/
abbrev Word := BitVec 16

/-- A general register's index, 0 to 15: it always comes from a 4-bit field (10_state.md R21). -/
abbrev RegIdx := Fin 16

/-- A key's number, 0 to 15 (45_keys_timers.md R230). -/
abbrev Key := Fin 16

end Sys2Proof
end

