-- ==== Sys2Proof/Syntax.lean ====
section
/-!
DEFINITION. The instruction set as syntax: one constructor for each of the 34 rows of spec/opcode_table.json
(30_encoding.md R106), named by the row's pattern, which is the instruction's name in the spec (R104).
The digits the decoder does not look at (R92) are kept, as `und`, so that no bit of an alias word (R101) is lost;
no meaning reads them.
-/

namespace Sys2Proof

inductive Instr where
  /-- 00E0, CLS: clear display; `und` = `IR[11:4]`, printed 0E (44_display.md R213). -/
  | op00E0 (und : BitVec 8)
  /-- 00EE, RET: return; `und` = `IR[11:4]`, printed 0E (41_control.md R140). -/
  | op00EE (und : BitVec 8)
  /-- 1nnn, JP nnn: jump (41_control.md R141). -/
  | op1nnn (nnn : BitVec 12)
  /-- 2nnn, CALL nnn: call (41_control.md R142). -/
  | op2nnn (nnn : BitVec 12)
  /-- 3xnn, SE Vx, nn: skip if equal to immediate (41_control.md R143). -/
  | op3xnn (x : RegIdx) (nn : Byte)
  /-- 4xnn, SNE Vx, nn: skip if different from immediate (41_control.md R144). -/
  | op4xnn (x : RegIdx) (nn : Byte)
  /-- 5xy0, SE Vx, Vy: skip if registers equal; `und` = `IR[3:0]`, printed 0 (41_control.md R145). -/
  | op5xy0 (x y : RegIdx) (und : BitVec 4)
  /-- 6xnn, LD Vx, nn: load immediate (42_alu.md R160). -/
  | op6xnn (x : RegIdx) (nn : Byte)
  /-- 7xnn, ADD Vx, nn: add immediate (42_alu.md R161). -/
  | op7xnn (x : RegIdx) (nn : Byte)
  /-- 8xy0, LD Vx, Vy: copy (42_alu.md R162). -/
  | op8xy0 (x y : RegIdx)
  /-- 8xy1, OR Vx, Vy (42_alu.md R163). -/
  | op8xy1 (x y : RegIdx)
  /-- 8xy2, AND Vx, Vy (42_alu.md R164). -/
  | op8xy2 (x y : RegIdx)
  /-- 8xy3, XOR Vx, Vy (42_alu.md R165). -/
  | op8xy3 (x y : RegIdx)
  /-- 8xy4, ADD Vx, Vy: add with carry flag (42_alu.md R166). -/
  | op8xy4 (x y : RegIdx)
  /-- 8xy5, SUB Vx, Vy: subtract with no-borrow flag (42_alu.md R167). -/
  | op8xy5 (x y : RegIdx)
  /-- 8xy6, SHR Vx: shift right; `y` is encoded and ignored (42_alu.md R168). -/
  | op8xy6 (x y : RegIdx)
  /-- 8xy7, SUBN Vx, Vy: subtract the other way round (42_alu.md R169). -/
  | op8xy7 (x y : RegIdx)
  /-- 8xyE, SHL Vx: shift left; `y` is encoded and ignored (42_alu.md R170). -/
  | op8xyE (x y : RegIdx)
  /-- 9xy0, SNE Vx, Vy: skip if registers differ; `und` = `IR[3:0]`, printed 0 (41_control.md R146). -/
  | op9xy0 (x y : RegIdx) (und : BitVec 4)
  /-- Annn, LD I, nnn: load index register (43_index_memory.md R190). -/
  | opAnnn (nnn : BitVec 12)
  /-- Bnnn, JP V0, nnn: jump with offset (41_control.md R147). -/
  | opBnnn (nnn : BitVec 12)
  /-- Cxnn, RND Vx, nn: random byte under mask (42_alu.md R171). -/
  | opCxnn (x : RegIdx) (nn : Byte)
  /-- Dxyn, DRW Vx, Vy, n: draw a sprite of `n` rows (44_display.md R214). -/
  | opDxyn (x y : RegIdx) (n : Fin 16)
  /-- Ex9E, SKP Vx: skip if key down; `und` = `IR[7:4]`, printed 9 (45_keys_timers.md R231). -/
  | opEx9E (x : RegIdx) (und : BitVec 4)
  /-- ExA1, SKNP Vx: skip if key up; `und` = `IR[7:4]`, printed A (45_keys_timers.md R232). -/
  | opExA1 (x : RegIdx) (und : BitVec 4)
  /-- Fx07, LD Vx, DT: read delay timer (45_keys_timers.md R234). -/
  | opFx07 (x : RegIdx)
  /-- Fx0A, LD Vx, K: wait for a key (45_keys_timers.md R233). -/
  | opFx0A (x : RegIdx)
  /-- Fx15, LD DT, Vx: set delay timer (45_keys_timers.md R235). -/
  | opFx15 (x : RegIdx)
  /-- Fx18, LD ST, Vx: set sound timer (45_keys_timers.md R236). -/
  | opFx18 (x : RegIdx)
  /-- Fx1E, ADD I, Vx: add register to index (43_index_memory.md R191). -/
  | opFx1E (x : RegIdx)
  /-- Fx29, LD F, Vx: address of font glyph (43_index_memory.md R192). -/
  | opFx29 (x : RegIdx)
  /-- Fx33, LD B, Vx: store binary-coded decimal (43_index_memory.md R193). -/
  | opFx33 (x : RegIdx)
  /-- Fx55, LD [I], Vx: store registers V0 to Vx (43_index_memory.md R194). -/
  | opFx55 (x : RegIdx)
  /-- Fx65, LD Vx, [I]: load registers V0 to Vx (43_index_memory.md R195). -/
  | opFx65 (x : RegIdx)
  deriving DecidableEq, Repr

/-- One row of the opcode map (30_encoding.md R106): the pattern, the decoder's test `IR & mask == match`, and the
printed pattern's own test (R102). -/
structure OpcodeRow where
  mnemonic : String
  mask : Word
  value : Word
  canonicalMask : Word
  canonicalValue : Word
  deriving DecidableEq, Repr

end Sys2Proof
end

