-- ==== Sys2Proof/WellFormed.lean ====
section
/-!
DEFINITION. Well-formedness of an instruction. Every field's range is its type, and every value of every field is
legal (30_encoding.md R103), so the one thing left to check is that the digits the decoder does not look at are the
ones the pattern prints: a well-formed instruction is one with a canonical word (R102), "the words an assembler
emits". An ill-formed instruction is an alias (R101): it still decodes and still runs, as its canonical form; a
program should not use it (log 10).
-/

namespace Sys2Proof

/-- The undecoded digits are the printed ones (30_encoding.md R101, R102). -/
def Instr.wellFormed : Instr → Bool
  | .op00E0 und => und == 0x0E#8
  | .op00EE und => und == 0x0E#8
  | .op1nnn _ => true
  | .op2nnn _ => true
  | .op3xnn _ _ => true
  | .op4xnn _ _ => true
  | .op5xy0 _ _ und => und == 0x0#4
  | .op6xnn _ _ => true
  | .op7xnn _ _ => true
  | .op8xy0 _ _ => true
  | .op8xy1 _ _ => true
  | .op8xy2 _ _ => true
  | .op8xy3 _ _ => true
  | .op8xy4 _ _ => true
  | .op8xy5 _ _ => true
  | .op8xy6 _ _ => true
  | .op8xy7 _ _ => true
  | .op8xyE _ _ => true
  | .op9xy0 _ _ und => und == 0x0#4
  | .opAnnn _ => true
  | .opBnnn _ => true
  | .opCxnn _ _ => true
  | .opDxyn _ _ _ => true
  | .opEx9E _ und => und == 0x9#4
  | .opExA1 _ und => und == 0xA#4
  | .opFx07 _ => true
  | .opFx0A _ => true
  | .opFx15 _ => true
  | .opFx18 _ => true
  | .opFx1E _ => true
  | .opFx29 _ => true
  | .opFx33 _ => true
  | .opFx55 _ => true
  | .opFx65 _ => true

/-- The canonical instruction an alias executes as: the same decoded fields, the printed digits
(30_encoding.md R101). -/
def Instr.canonical : Instr → Instr
  | .op00E0 _ => .op00E0 0x0E#8
  | .op00EE _ => .op00EE 0x0E#8
  | .op1nnn nnn => .op1nnn nnn
  | .op2nnn nnn => .op2nnn nnn
  | .op3xnn x nn => .op3xnn x nn
  | .op4xnn x nn => .op4xnn x nn
  | .op5xy0 x y _ => .op5xy0 x y 0x0#4
  | .op6xnn x nn => .op6xnn x nn
  | .op7xnn x nn => .op7xnn x nn
  | .op8xy0 x y => .op8xy0 x y
  | .op8xy1 x y => .op8xy1 x y
  | .op8xy2 x y => .op8xy2 x y
  | .op8xy3 x y => .op8xy3 x y
  | .op8xy4 x y => .op8xy4 x y
  | .op8xy5 x y => .op8xy5 x y
  | .op8xy6 x y => .op8xy6 x y
  | .op8xy7 x y => .op8xy7 x y
  | .op8xyE x y => .op8xyE x y
  | .op9xy0 x y _ => .op9xy0 x y 0x0#4
  | .opAnnn nnn => .opAnnn nnn
  | .opBnnn nnn => .opBnnn nnn
  | .opCxnn x nn => .opCxnn x nn
  | .opDxyn x y n => .opDxyn x y n
  | .opEx9E x _ => .opEx9E x 0x9#4
  | .opExA1 x _ => .opExA1 x 0xA#4
  | .opFx07 x => .opFx07 x
  | .opFx0A x => .opFx0A x
  | .opFx15 x => .opFx15 x
  | .opFx18 x => .opFx18 x
  | .opFx1E x => .opFx1E x
  | .opFx29 x => .opFx29 x
  | .opFx33 x => .opFx33 x
  | .opFx55 x => .opFx55 x
  | .opFx65 x => .opFx65 x

end Sys2Proof
end

