-- ==== Sys2Proof/Decode.lean ====
section
/-!
DEFINITION. Decoding and encoding (30_encoding.md R90 to R106). `decode` is the two-level decode of R94 to R99, a
pure function of the 16 bits of the word (R103). It is total; a word with no handler (R100) is rejected by name,
and the cycle then runs it as the no-op of R125. `encode` is written from the formats of R92, and `opcodeTable` is
the opcode map of R106 with its masks.
-/

namespace Sys2Proof

/-- Why bytes decode to no instruction. -/
inductive Reject where
  /-- The word's family has a second level and its sub-opcode has no handler (30_encoding.md R100): the
  DecodeError of 60_exceptions.md R253. -/
  | noHandler (w : Word)
  /-- Fewer than the two bytes of an instruction (30_encoding.md R90). -/
  | truncated
  deriving DecidableEq, Repr

/-! ## Fields of an instruction word (R91) -/

/-- `op`, the family: `IR[15:12]`. -/
def opOf (w : Word) : BitVec 4 := w.extractLsb' 12 4

/-- `x`, a register index: `IR[11:8]`. -/
def xOf (w : Word) : RegIdx := (w.extractLsb' 8 4).toFin

/-- `y`, a register index: `IR[7:4]`. -/
def yOf (w : Word) : RegIdx := (w.extractLsb' 4 4).toFin

/-- `n` as a sub-opcode or as undecoded digits: `IR[3:0]`. -/
def lowNibbleOf (w : Word) : BitVec 4 := w.extractLsb' 0 4

/-- `n` as a count of sprite rows: `IR[3:0]`. -/
def nOf (w : Word) : Fin 16 := (w.extractLsb' 0 4).toFin

/-- `nn`, an 8-bit immediate or the sub-opcode of family F: `IR[7:0]`. -/
def nnOf (w : Word) : Byte := w.extractLsb' 0 8

/-- `nnn`, a 12-bit immediate: `IR[11:0]`. -/
def nnnOf (w : Word) : BitVec 12 := w.extractLsb' 0 12

/-- The undecoded middle byte of format Z: `IR[11:4]` (R92). -/
def midOf (w : Word) : BitVec 8 := w.extractLsb' 4 8

/-- The undecoded digit of format XS: `IR[7:4]` (R92). -/
def yDigitOf (w : Word) : BitVec 4 := w.extractLsb' 4 4

/-! ## Decode, level two (R95 to R98) -/

/-- Family 0x0: the sub-opcode is `IR[3:0]` (R95). -/
def decodeFamily0 (w : Word) : Except Reject Instr :=
  match lowNibbleOf w with
  | 0x0#4 => .ok (.op00E0 (midOf w))
  | 0xE#4 => .ok (.op00EE (midOf w))
  | _ => .error (.noHandler w)

/-- Family 0x8: the sub-opcode is `IR[3:0]` (R96). -/
def decodeFamily8 (w : Word) : Except Reject Instr :=
  match lowNibbleOf w with
  | 0x0#4 => .ok (.op8xy0 (xOf w) (yOf w))
  | 0x1#4 => .ok (.op8xy1 (xOf w) (yOf w))
  | 0x2#4 => .ok (.op8xy2 (xOf w) (yOf w))
  | 0x3#4 => .ok (.op8xy3 (xOf w) (yOf w))
  | 0x4#4 => .ok (.op8xy4 (xOf w) (yOf w))
  | 0x5#4 => .ok (.op8xy5 (xOf w) (yOf w))
  | 0x6#4 => .ok (.op8xy6 (xOf w) (yOf w))
  | 0x7#4 => .ok (.op8xy7 (xOf w) (yOf w))
  | 0xE#4 => .ok (.op8xyE (xOf w) (yOf w))
  | _ => .error (.noHandler w)

/-- Family 0xE: the sub-opcode is `IR[3:0]` (R97). -/
def decodeFamilyE (w : Word) : Except Reject Instr :=
  match lowNibbleOf w with
  | 0xE#4 => .ok (.opEx9E (xOf w) (yDigitOf w))
  | 0x1#4 => .ok (.opExA1 (xOf w) (yDigitOf w))
  | _ => .error (.noHandler w)

/-- Family 0xF: the sub-opcode is the whole low byte `IR[7:0]` (R98). -/
def decodeFamilyF (w : Word) : Except Reject Instr :=
  match nnOf w with
  | 0x07#8 => .ok (.opFx07 (xOf w))
  | 0x0A#8 => .ok (.opFx0A (xOf w))
  | 0x15#8 => .ok (.opFx15 (xOf w))
  | 0x18#8 => .ok (.opFx18 (xOf w))
  | 0x1E#8 => .ok (.opFx1E (xOf w))
  | 0x29#8 => .ok (.opFx29 (xOf w))
  | 0x33#8 => .ok (.opFx33 (xOf w))
  | 0x55#8 => .ok (.opFx55 (xOf w))
  | 0x65#8 => .ok (.opFx65 (xOf w))
  | _ => .error (.noHandler w)

/-! ## Decode, level one (R94, R99) -/

/-- The handler a word selects, with its operands (40_cycle.md R124), or its rejection by name. -/
def decode (w : Word) : Except Reject Instr :=
  match opOf w with
  | 0x0#4 => decodeFamily0 w
  | 0x1#4 => .ok (.op1nnn (nnnOf w))
  | 0x2#4 => .ok (.op2nnn (nnnOf w))
  | 0x3#4 => .ok (.op3xnn (xOf w) (nnOf w))
  | 0x4#4 => .ok (.op4xnn (xOf w) (nnOf w))
  | 0x5#4 => .ok (.op5xy0 (xOf w) (yOf w) (lowNibbleOf w))
  | 0x6#4 => .ok (.op6xnn (xOf w) (nnOf w))
  | 0x7#4 => .ok (.op7xnn (xOf w) (nnOf w))
  | 0x8#4 => decodeFamily8 w
  | 0x9#4 => .ok (.op9xy0 (xOf w) (yOf w) (lowNibbleOf w))
  | 0xA#4 => .ok (.opAnnn (nnnOf w))
  | 0xB#4 => .ok (.opBnnn (nnnOf w))
  | 0xC#4 => .ok (.opCxnn (xOf w) (nnOf w))
  | 0xD#4 => .ok (.opDxyn (xOf w) (yOf w) (nOf w))
  | 0xE#4 => decodeFamilyE w
  | _ => decodeFamilyF w      -- 0xF, the one family left

/-! ## Bytes (20_memory.md R67) -/

/-- The instruction word two consecutive bytes hold: big-endian, the first byte high. -/
def wordOfBytes (hi lo : Byte) : Word := hi ++ lo

/-- The byte at the lower address, `IR[15:8]`. -/
def highByte (w : Word) : Byte := w.extractLsb' 8 8

/-- The byte at the higher address, `IR[7:0]`. -/
def lowByte (w : Word) : Byte := w.extractLsb' 0 8

/-- Decode the instruction at the front of a sequence of bytes, with the bytes that follow it. -/
def decodeBytes : List Byte → Except Reject (Instr × List Byte)
  | hi :: lo :: rest => (decode (wordOfBytes hi lo)).map (fun i => (i, rest))
  | _ => .error .truncated

/-! ## Encode (R92, R102) -/

/-- A register index or a row count as four bits of the word. -/
def nibble (k : Fin 16) : BitVec 4 := BitVec.ofFin k

/-- The word of an instruction: canonical exactly when the instruction is well-formed. -/
def encode : Instr → Word
  | .op00E0 und => 0x0#4 ++ und ++ 0x0#4
  | .op00EE und => 0x0#4 ++ und ++ 0xE#4
  | .op1nnn nnn => 0x1#4 ++ nnn
  | .op2nnn nnn => 0x2#4 ++ nnn
  | .op3xnn x nn => 0x3#4 ++ nibble x ++ nn
  | .op4xnn x nn => 0x4#4 ++ nibble x ++ nn
  | .op5xy0 x y und => 0x5#4 ++ nibble x ++ nibble y ++ und
  | .op6xnn x nn => 0x6#4 ++ nibble x ++ nn
  | .op7xnn x nn => 0x7#4 ++ nibble x ++ nn
  | .op8xy0 x y => 0x8#4 ++ nibble x ++ nibble y ++ 0x0#4
  | .op8xy1 x y => 0x8#4 ++ nibble x ++ nibble y ++ 0x1#4
  | .op8xy2 x y => 0x8#4 ++ nibble x ++ nibble y ++ 0x2#4
  | .op8xy3 x y => 0x8#4 ++ nibble x ++ nibble y ++ 0x3#4
  | .op8xy4 x y => 0x8#4 ++ nibble x ++ nibble y ++ 0x4#4
  | .op8xy5 x y => 0x8#4 ++ nibble x ++ nibble y ++ 0x5#4
  | .op8xy6 x y => 0x8#4 ++ nibble x ++ nibble y ++ 0x6#4
  | .op8xy7 x y => 0x8#4 ++ nibble x ++ nibble y ++ 0x7#4
  | .op8xyE x y => 0x8#4 ++ nibble x ++ nibble y ++ 0xE#4
  | .op9xy0 x y und => 0x9#4 ++ nibble x ++ nibble y ++ und
  | .opAnnn nnn => 0xA#4 ++ nnn
  | .opBnnn nnn => 0xB#4 ++ nnn
  | .opCxnn x nn => 0xC#4 ++ nibble x ++ nn
  | .opDxyn x y n => 0xD#4 ++ nibble x ++ nibble y ++ nibble n
  | .opEx9E x und => 0xE#4 ++ nibble x ++ und ++ 0xE#4
  | .opExA1 x und => 0xE#4 ++ nibble x ++ und ++ 0x1#4
  | .opFx07 x => 0xF#4 ++ nibble x ++ 0x07#8
  | .opFx0A x => 0xF#4 ++ nibble x ++ 0x0A#8
  | .opFx15 x => 0xF#4 ++ nibble x ++ 0x15#8
  | .opFx18 x => 0xF#4 ++ nibble x ++ 0x18#8
  | .opFx1E x => 0xF#4 ++ nibble x ++ 0x1E#8
  | .opFx29 x => 0xF#4 ++ nibble x ++ 0x29#8
  | .opFx33 x => 0xF#4 ++ nibble x ++ 0x33#8
  | .opFx55 x => 0xF#4 ++ nibble x ++ 0x55#8
  | .opFx65 x => 0xF#4 ++ nibble x ++ 0x65#8

/-! ## The opcode map (R102, R106) -/

/-- The row of the opcode map an instruction belongs to: the columns `mnemonic`, `mask`, `match`, `canonical_mask`
and `canonical_match` of spec/opcode_table.json. -/
def Instr.row : Instr → OpcodeRow
  | .op00E0 _ => ⟨"00E0", 0xF00F#16, 0x0000#16, 0xFFFF#16, 0x00E0#16⟩
  | .op00EE _ => ⟨"00EE", 0xF00F#16, 0x000E#16, 0xFFFF#16, 0x00EE#16⟩
  | .op1nnn _ => ⟨"1nnn", 0xF000#16, 0x1000#16, 0xF000#16, 0x1000#16⟩
  | .op2nnn _ => ⟨"2nnn", 0xF000#16, 0x2000#16, 0xF000#16, 0x2000#16⟩
  | .op3xnn _ _ => ⟨"3xnn", 0xF000#16, 0x3000#16, 0xF000#16, 0x3000#16⟩
  | .op4xnn _ _ => ⟨"4xnn", 0xF000#16, 0x4000#16, 0xF000#16, 0x4000#16⟩
  | .op5xy0 _ _ _ => ⟨"5xy0", 0xF000#16, 0x5000#16, 0xF00F#16, 0x5000#16⟩
  | .op6xnn _ _ => ⟨"6xnn", 0xF000#16, 0x6000#16, 0xF000#16, 0x6000#16⟩
  | .op7xnn _ _ => ⟨"7xnn", 0xF000#16, 0x7000#16, 0xF000#16, 0x7000#16⟩
  | .op8xy0 _ _ => ⟨"8xy0", 0xF00F#16, 0x8000#16, 0xF00F#16, 0x8000#16⟩
  | .op8xy1 _ _ => ⟨"8xy1", 0xF00F#16, 0x8001#16, 0xF00F#16, 0x8001#16⟩
  | .op8xy2 _ _ => ⟨"8xy2", 0xF00F#16, 0x8002#16, 0xF00F#16, 0x8002#16⟩
  | .op8xy3 _ _ => ⟨"8xy3", 0xF00F#16, 0x8003#16, 0xF00F#16, 0x8003#16⟩
  | .op8xy4 _ _ => ⟨"8xy4", 0xF00F#16, 0x8004#16, 0xF00F#16, 0x8004#16⟩
  | .op8xy5 _ _ => ⟨"8xy5", 0xF00F#16, 0x8005#16, 0xF00F#16, 0x8005#16⟩
  | .op8xy6 _ _ => ⟨"8xy6", 0xF00F#16, 0x8006#16, 0xF00F#16, 0x8006#16⟩
  | .op8xy7 _ _ => ⟨"8xy7", 0xF00F#16, 0x8007#16, 0xF00F#16, 0x8007#16⟩
  | .op8xyE _ _ => ⟨"8xyE", 0xF00F#16, 0x800E#16, 0xF00F#16, 0x800E#16⟩
  | .op9xy0 _ _ _ => ⟨"9xy0", 0xF000#16, 0x9000#16, 0xF00F#16, 0x9000#16⟩
  | .opAnnn _ => ⟨"Annn", 0xF000#16, 0xA000#16, 0xF000#16, 0xA000#16⟩
  | .opBnnn _ => ⟨"Bnnn", 0xF000#16, 0xB000#16, 0xF000#16, 0xB000#16⟩
  | .opCxnn _ _ => ⟨"Cxnn", 0xF000#16, 0xC000#16, 0xF000#16, 0xC000#16⟩
  | .opDxyn _ _ _ => ⟨"Dxyn", 0xF000#16, 0xD000#16, 0xF000#16, 0xD000#16⟩
  | .opEx9E _ _ => ⟨"Ex9E", 0xF00F#16, 0xE00E#16, 0xF0FF#16, 0xE09E#16⟩
  | .opExA1 _ _ => ⟨"ExA1", 0xF00F#16, 0xE001#16, 0xF0FF#16, 0xE0A1#16⟩
  | .opFx07 _ => ⟨"Fx07", 0xF0FF#16, 0xF007#16, 0xF0FF#16, 0xF007#16⟩
  | .opFx0A _ => ⟨"Fx0A", 0xF0FF#16, 0xF00A#16, 0xF0FF#16, 0xF00A#16⟩
  | .opFx15 _ => ⟨"Fx15", 0xF0FF#16, 0xF015#16, 0xF0FF#16, 0xF015#16⟩
  | .opFx18 _ => ⟨"Fx18", 0xF0FF#16, 0xF018#16, 0xF0FF#16, 0xF018#16⟩
  | .opFx1E _ => ⟨"Fx1E", 0xF0FF#16, 0xF01E#16, 0xF0FF#16, 0xF01E#16⟩
  | .opFx29 _ => ⟨"Fx29", 0xF0FF#16, 0xF029#16, 0xF0FF#16, 0xF029#16⟩
  | .opFx33 _ => ⟨"Fx33", 0xF0FF#16, 0xF033#16, 0xF0FF#16, 0xF033#16⟩
  | .opFx55 _ => ⟨"Fx55", 0xF0FF#16, 0xF055#16, 0xF0FF#16, 0xF055#16⟩
  | .opFx65 _ => ⟨"Fx65", 0xF0FF#16, 0xF065#16, 0xF0FF#16, 0xF065#16⟩

/-- The decoder's test of a row accepts the word (R106). -/
def OpcodeRow.accepts (r : OpcodeRow) (w : Word) : Bool := w &&& r.mask == r.value

/-- The word matches the row's printed pattern digit for digit (R102). -/
def OpcodeRow.prints (r : OpcodeRow) (w : Word) : Bool := w &&& r.canonicalMask == r.canonicalValue

/-! ## The host's view of the decoder -/

/-- The word of an opcode-table row's instruction: the table numbers an instruction's bits as `IR` does, and bits
above `nbits` are 0. -/
def tableWord (nbits w : Nat) : Word := BitVec.ofNat 16 (w % 2 ^ nbits)

/-- What the decoder reads from the two bytes of the table's word, laid out high byte first. -/
def decodeTableWord (nbits w : Nat) : Option Instr :=
  match decodeBytes [highByte (tableWord nbits w), lowByte (tableWord nbits w)] with
  | .ok (i, _) => some i
  | .error _ => none

end Sys2Proof
end

