-- ==== Sys2Proof/Config.lean ====
section
/-!
DEFINITION. What is fixed for this machine (00_scope.md R4) and the free values the spec leaves open: the inputs of
a cycle the environment's list in the state does not give (10_state.md R33; log 3).
-/

namespace Sys2Proof.Config

/-- MEM_SIZE, bytes of memory (R4, R60). -/
def memSize : Nat := 4096

/-- FONT_BASE, first address of the font table (R4, R62). -/
def fontBase : Nat := 0x050

/-- FONT_GLYPH_BYTES: a glyph's stride in the font table (R4, R63). -/
def glyphBytes : Nat := 5

/-- PROG_BASE, ROM load address and reset `PC` (R4, R62). -/
def progBase : Nat := 0x200

/-- ROM_MAX, largest ROM in bytes (R4, R293; conflict C4). -/
def romMax : Nat := 3584

/-- FONT, the 80 bytes at FONT_BASE, at the default value of 20_memory.md R63.
PRESUMED (log 2): the spec takes the bytes from general knowledge (D30). Unsafe: a claim about glyph shapes rests
on them. -/
def font : List Byte :=
  [0xF0#8, 0x90#8, 0x90#8, 0x90#8, 0xF0#8] ++ [0x20#8, 0x60#8, 0x20#8, 0x20#8, 0x70#8] ++
  [0xF0#8, 0x10#8, 0xF0#8, 0x80#8, 0xF0#8] ++ [0xF0#8, 0x10#8, 0xF0#8, 0x10#8, 0xF0#8] ++
  [0x90#8, 0x90#8, 0xF0#8, 0x10#8, 0x10#8] ++ [0xF0#8, 0x80#8, 0xF0#8, 0x10#8, 0xF0#8] ++
  [0xF0#8, 0x80#8, 0xF0#8, 0x90#8, 0xF0#8] ++ [0xF0#8, 0x10#8, 0x20#8, 0x40#8, 0x40#8] ++
  [0xF0#8, 0x90#8, 0xF0#8, 0x90#8, 0xF0#8] ++ [0xF0#8, 0x90#8, 0xF0#8, 0x10#8, 0xF0#8] ++
  [0xF0#8, 0x90#8, 0xF0#8, 0x90#8, 0x90#8] ++ [0xE0#8, 0x90#8, 0xE0#8, 0x90#8, 0xE0#8] ++
  [0xF0#8, 0x80#8, 0x80#8, 0x80#8, 0xF0#8] ++ [0xE0#8, 0x90#8, 0x90#8, 0x90#8, 0xE0#8] ++
  [0xF0#8, 0x80#8, 0xF0#8, 0x80#8, 0xF0#8] ++ [0xF0#8, 0x80#8, 0xF0#8, 0x80#8, 0x80#8]

/-- `KEYS` of the `n`-th cycle whose inputs the state's list does not give: any value (10_state.md R33; U14; log 3). -/
opaque freeKeys : Nat → Vector Bool 16

/-- KEY_CHOICE of that cycle: any value (10_state.md R33; U13; log 3, log 4). -/
opaque freeKeyChoice : Nat → Key

/-- `RND` of that cycle: any value (10_state.md R33; U12; log 3). -/
opaque freeRnd : Nat → Byte

end Sys2Proof.Config
end

