-- ==== Sys2Proof/Machine/State.lean ====
section
/-!
DEFINITION. The machine's state (10_state.md R20 to R37), as plain data, the state after reset (R36), and the reasons
a cycle can stop.
-/

namespace Sys2Proof.Machine

/-- `MEM` (R30) as a list of (address, byte) pairs in one canonical form (log 23): addresses strictly rising and
below 4096, no entry equal to what an unlisted address reads as. `Memory.wf` in Ops.lean says so. -/
abbrev Memory := List Host.Cell

/-- `FB` (R31): 32 rows of 64 one-bit cells, row 0 and column 0 first; `true` is a set pixel. -/
abbrev Framebuffer := Vector (Vector Bool 64) 32

/-- A display with every pixel clear. -/
def Framebuffer.blank : Framebuffer := Vector.replicate 32 (Vector.replicate 64 false)

/-- `RUN` (R32): there are two run states and no mode (60_exceptions.md R260). -/
inductive RunState where
  | running
  | faulted
  deriving DecidableEq, Repr

/-- The inputs the environment supplies to one cycle (R33): `KEYS`, the choice KEY_CHOICE of the key `ANYKEY`
reports, and `RND`. `ANYKEY` itself is `CycleInput.anyKey` in Operands.lean, so that it always agrees with `KEYS`
as R33 requires (log 4). -/
structure CycleInput where
  keys : Vector Bool 16
  keyChoice : Key
  rnd : Byte
  deriving DecidableEq, Repr

/-- The fatal errors of a cycle (60_exceptions.md R250, R251), each with the value it reports (R256).
The machine TAKES a fatal error: the cycle's next state is FAULTED with the report written (R255), by `State.raise`
in Ops.lean. No step answers with the outcome `fault` (log 8), which is exact: the spec gives the effect. -/
inductive Fault where
  /-- BoundsError: raised by a fetch with `PC` above 0x0FFE, by Dxyn, Fx33, Fx55, Fx65 with a range past 0x0FFF, by
  Ex9E and ExA1 with `V[x]` above 15; `info` is the lowest bad address or the key number. The first two are the
  source's and safe; the last rests on decision D12 and errs toward unprovable: safe (log 16). -/
  | boundsError (info : Word)
  /-- StackError: raised by 2nnn with `SP` = 16 and by 00EE with `SP` = 0; `info` is `SP`. Safe: the source's. -/
  | stackError (info : Word)
  deriving DecidableEq, Repr

/-- Why an instruction has no meaning. -/
inductive Refusal where
  /-- Raised by the arm of an instruction that has no meaning yet; no arm of this model raises it. Safe. -/
  | notModelled (mnemonic : String)
  deriving DecidableEq, Repr

/-- The whole state of the core (R20), then the model's own three fields (`inputs`, `draws`, `warn`). -/
structure State where
  /-- `V[0]` to `V[15]` (R21); `VF` is `V[15]` (R22). -/
  v : Vector Byte 16
  /-- `I` (R23). -/
  i : Word
  /-- `PC` (R24). -/
  pc : Word
  /-- `SP`, the number of return addresses held, 0 to 16 (R25; log 7). -/
  sp : Fin 17
  /-- `STACK[0]` to `STACK[15]` (R26). -/
  stack : Vector Word 16
  /-- `DT` (R27). -/
  dt : Byte
  /-- `ST` (R28). -/
  st : Byte
  /-- `IR` (R29): the word of the last cycle that completed (log 6). -/
  ir : Word
  /-- `MEM` (R30). -/
  mem : Memory
  /-- `FB` (R31). -/
  fb : Framebuffer
  /-- `RUN` (R32). -/
  run : RunState
  /-- `FAULT_CAUSE` (R32), a code of 60_exceptions.md R251. -/
  faultCause : BitVec 3
  /-- `FAULT_PC` (R32). -/
  faultPc : Word
  /-- `FAULT_INFO` (R32; 60_exceptions.md R256). -/
  faultInfo : Word
  /-- The model's own: the inputs the environment presents to the coming cycles, the next cycle's first (log 3). -/
  inputs : List CycleInput
  /-- The model's own: how many cycles have taken their inputs from the free values of Config (log 3). -/
  draws : Nat
  /-- The model's own: the output `WARN` (R34) of the last cycle that ran, the word or nothing (log 5). -/
  warn : Option Word
  deriving DecidableEq, Repr

/-- The state after reset (R36, R290). `PC`, memory, `SP` and `RUN` are the source's; zero for `V`, `I`, `DT`, `ST`,
`STACK`, `IR` and `FB` is the spec's decision D6. DESIGN CHOICE (log 1), unsafe. `inputs`, `draws` and `warn` are the
model's own. -/
def State.reset : State where
  v := Vector.replicate 16 0x00#8
  i := 0x0000#16
  pc := BitVec.ofNat 16 Config.progBase
  sp := 0
  stack := Vector.replicate 16 0x0000#16
  dt := 0x00#8
  st := 0x00#8
  ir := 0x0000#16
  mem := []
  fb := Framebuffer.blank
  run := .running
  faultCause := 0#3
  faultPc := 0x0000#16
  faultInfo := 0x0000#16
  inputs := []
  draws := 0
  warn := none

end Sys2Proof.Machine
end

