-- ==== Sys2Proof/Machine/Ops.lean ====
section
/-!
DEFINITION. The shared operations: memory and its bounds check (20_memory.md R60 to R76; 43_index_memory.md R196),
the registers, the call stack (10_state.md R25, R26), fetch (40_cycle.md R122, R123), the timer tick (R126), the end
of a cycle, and the entry into the FAULTED state (60_exceptions.md R255), which is this machine's only exception.
There is no return from it but reset (R258).
-/

namespace Sys2Proof.Machine

/-! ## Memory cells -/

/-- What an address that memory does not list reads as: its content at reset (10_state.md R36; 20_memory.md R62),
the font table at 0x050 to 0x09F (R63; log 2) and zero elsewhere. -/
def Memory.background (a : Nat) : Byte :=
  if Config.fontBase ≤ a then Config.font.getD (a - Config.fontBase) 0x00#8 else 0x00#8

/-- The byte at an address. -/
def Memory.read : Memory → Nat → Byte
  | [], a => Memory.background a
  | (k, b) :: rest, a => if k = a then b else Memory.read rest a

/-- A cell in front of the cells of higher addresses, left out when it equals the background. -/
def Memory.place (a : Nat) (b : Byte) (rest : Memory) : Memory :=
  if b = Memory.background a then rest else (a, b) :: rest

/-- Memory with the byte at one address replaced, in canonical form. -/
def Memory.write : Memory → Nat → Byte → Memory
  | [], a, b => Memory.place a b []
  | (k, c) :: rest, a, b =>
    if a < k then Memory.place a b ((k, c) :: rest)
    else if a = k then Memory.place a b rest
    else (k, c) :: Memory.write rest a b

/-- The canonical form, from an address on: addresses strictly rising, inside memory, no cell equal to the background. -/
def Memory.wfFrom (lo : Nat) : Memory → Bool
  | [] => true
  | (k, b) :: rest =>
    decide (lo ≤ k) && decide (k < Config.memSize) && (b != Memory.background k) && Memory.wfFrom (k + 1) rest

/-- The canonical form of memory (log 23). -/
def Memory.wf (m : Memory) : Bool := Memory.wfFrom 0 m

/-- The `len` bytes from an address on, lowest address first (20_memory.md R68). -/
def Memory.readBytes (m : Memory) (a : Nat) : Nat → List Byte
  | 0 => []
  | len + 1 => m.read a :: m.readBytes (a + 1) len

/-- Memory with the bytes stored from an address on, lowest address first (20_memory.md R68). -/
def Memory.writeBytes (m : Memory) (a : Nat) : List Byte → Memory
  | [] => m
  | b :: rest => (m.write a b).writeBytes (a + 1) rest

/-! ## The bounds check and the access primitives (20_memory.md R64 to R66; 43_index_memory.md R196) -/

/-- The lowest address of the range `a`, ..., `a + len - 1` that is not in memory, if there is one. Addresses are
unbounded numbers: no wrap at 0x1000 or 0x10000 (R196). An empty range has none (R196, R214). -/
def firstOutside (a len : Nat) : Option Nat :=
  if 0 < len ∧ 0x0FFF < a + len - 1 then some (max a 0x1000) else none

/-- The check of a whole access, made before any state changes (20_memory.md R66). -/
def checkRange (a len : Nat) : Except Fault Unit :=
  match firstOutside a len with
  | some bad => .error (.boundsError (BitVec.ofNat 16 bad))
  | none => .ok ()

/-- MemRead (R64) of the `len` bytes from `a` on. -/
def memRead (m : Memory) (a len : Nat) : Except Fault (List Byte) :=
  (checkRange a len).map fun _ => m.readBytes a len

/-- MemWrite (R65) of the bytes from `a` on; on an error nothing is written (R66). -/
def memWrite (m : Memory) (a : Nat) (bytes : List Byte) : Except Fault Memory :=
  (checkRange a bytes.length).map fun _ => m.writeBytes a bytes

/-! ## Registers -/

/-- `V[k]` (10_state.md R21). -/
def State.reg (s : State) (k : RegIdx) : Byte := s.v[k]

/-- `V[k] <- b` (10_state.md R21). -/
def State.setReg (s : State) (k : RegIdx) (b : Byte) : State := { s with v := s.v.set k b }

/-- `V[k], V[k + 1], ...` loaded from bytes, in that order (43_index_memory.md R195). -/
def loadRegs (v : Vector Byte 16) (k : Nat) : List Byte → Vector Byte 16
  | [] => v
  | b :: rest => loadRegs (v.setIfInBounds k b) (k + 1) rest

/-- `PC <- PC + 2` if the condition holds: the skip (41_control.md R148). -/
def State.skipIf (s : State) (c : Bool) : State := { s with pc := if c then s.pc + 2#16 else s.pc }

/-! ## Fatal errors (60_exceptions.md R250 to R258) -/

/-- The cause code (R251; decision D3). -/
def Fault.code : Fault → BitVec 3
  | .boundsError _ => 2#3
  | .stackError _ => 3#3

/-- The value reported (R256). -/
def Fault.info : Fault → Word
  | .boundsError a => a
  | .stackError n => n

/-- TAKING A FATAL ERROR (R255): the fault report is written, and `PC` is at `pc0`, the address of the instruction
whose cycle failed. Nothing else changes. There is no handler, no vector and no saved state (R255). -/
def State.raise (s : State) (pc0 : Word) (f : Fault) : State :=
  { s with run := .faulted, faultCause := f.code, faultPc := pc0, faultInfo := f.info, pc := pc0 }

/-- The execute phase's end: the handler's result, or the fatal error taken from the state the handler began in, so
that none of its writes is committed (40_cycle.md R127). In the execute phase `PC` is `npc = pc0 + 2` (R123). -/
def State.complete (s : State) (result : Except Fault State) : Host.Outcome State Fault Refusal :=
  match result with
  | .ok t => .next t
  | .error f => .next (s.raise (s.pc - 2#16) f)

/-! ## The call stack (10_state.md R25, R26) -/

/-- `STACK[SP] <- PC; SP <- SP + 1` (41_control.md R142); StackError when full. -/
def State.push (s : State) : Except Fault State :=
  if h : s.sp.val < 16 then
    .ok { s with stack := s.stack.set s.sp.val s.pc h, sp := ⟨s.sp.val + 1, by omega⟩ }
  else .error (.stackError (BitVec.ofNat 16 s.sp.val))

/-- `PC <- STACK[SP - 1]; SP <- SP - 1` (41_control.md R140); StackError when empty. The entry is not cleared (R26). -/
def State.pop (s : State) : Except Fault State :=
  if h : 0 < s.sp.val then
    .ok { s with pc := s.stack[s.sp.val - 1]'(by omega), sp := ⟨s.sp.val - 1, by omega⟩ }
  else .error (.stackError (BitVec.ofNat 16 s.sp.val))

/-! ## The phases of a cycle (40_cycle.md R121) -/

/-- Fetch (R122): the big-endian pair at `PC`, both addresses checked. -/
def State.fetch (s : State) : Except Fault Word :=
  (checkRange s.pc.toNat 2).map fun _ =>
    wordOfBytes (s.mem.read s.pc.toNat) (s.mem.read (s.pc.toNat + 1))

/-- `PC <- PC + 2`, after a fetch and before decode and execute (R123). -/
def State.advance (s : State) : State := { s with pc := s.pc + 2#16 }

/-- A timer after one tick: one less, and never below 0 (R126). -/
def tickTimer (t : Byte) : Byte := if t = 0x00#8 then 0x00#8 else t - 1#8

/-- The timer tick, phase 4 (R126). -/
def State.tick (s : State) : State := { s with dt := tickTimer s.dt, st := tickTimer s.st }

/-- The cycle's inputs have been used: the next cycle samples its own (10_state.md R33; log 3). -/
def State.consumeInput (s : State) : State :=
  match s.inputs with
  | _ :: rest => { s with inputs := rest }
  | [] => { s with draws := s.draws + 1 }

/-- The end of a cycle without a fatal error: the timers tick, `IR` holds the word (log 6), and `WARN` carries the
event of this cycle, if any (60_exceptions.md R253). -/
def State.finish (s : State) (w : Word) (event : Option Word) : State :=
  State.consumeInput { s.tick with ir := w, warn := event }

/-- The end of a cycle with a fatal error: no tick, no `WARN` (60_exceptions.md R255). -/
def State.abandon (s : State) : State := State.consumeInput { s with warn := none }

/-- The end of a cycle whose execute phase gave this state. -/
def State.endCycle (s : State) (w : Word) : State :=
  match s.run with
  | .running => s.finish w none
  | .faulted => s.abandon

end Sys2Proof.Machine
end

