-- ==== Sys2Proof/Machine/Operands.lean ====
section
/-!
DEFINITION. The operand forms (30_encoding.md R93): immediates as they stand, zero-extended where a wider value is
wanted; registers; the range `V[0]` to `V[x]`; the byte at `I` plus an offset, the only addressing mode
(43_index_memory.md); and the inputs of the cycle (10_state.md R33; 40_cycle.md R130).
-/

namespace Sys2Proof.Machine

/-- `zext_16` of a byte (00_scope.md R6). -/
def byteToWord (b : Byte) : Word := b.setWidth 16

/-- `zext_16` of the address immediate `nnn` (30_encoding.md R93). -/
def addressToWord (nnn : BitVec 12) : Word := nnn.setWidth 16

/-- The bytes `V[0]`, ..., `V[x]` (43_index_memory.md R194). -/
def State.regsUpTo (s : State) (x : RegIdx) : List Byte := s.v.toList.take (x.val + 1)

/-- The base address of a memory access: `I`, as an unbounded number (43_index_memory.md R196). -/
def State.base (s : State) : Nat := s.i.toNat

/-- The `len` bytes at `I` (43_index_memory.md R195, R196; 44_display.md R214). -/
def State.loadAtI (s : State) (len : Nat) : Except Fault (List Byte) := memRead s.mem s.base len

/-- Memory with bytes stored at `I` on (43_index_memory.md R193, R194, R196). -/
def State.storeAtI (s : State) (bytes : List Byte) : Except Fault State :=
  (memWrite s.mem s.base bytes).map fun m => { s with mem := m }

/-- The address of font glyph `d`: `0x0050 + 5 * d`, in 16 bits, for the whole byte (43_index_memory.md R192; log 15). -/
def glyphAddress (d : Byte) : Word :=
  BitVec.ofNat 16 Config.fontBase + BitVec.ofNat 16 Config.glyphBytes * byteToWord d

/-- The decimal digits of a byte, hundreds, tens, ones (43_index_memory.md R193). -/
def bcdDigits (b : Byte) : List Byte :=
  [BitVec.ofNat 8 (b.toNat / 100), BitVec.ofNat 8 (b.toNat / 10 % 10), BitVec.ofNat 8 (b.toNat % 10)]

/-! ## Inputs of the cycle -/

/-- The 16 keys. -/
def allKeys : List Key := [0, 1, 2, 3, 4, 5, 6, 7, 8, 9, 10, 11, 12, 13, 14, 15]

/-- `ANYKEY` (10_state.md R33): none exactly when no key is down, else a key that is down. The environment chooses
it by `keyChoice`; when that key is up, the first key down stands in, which shuts out nothing, since the environment
may choose any key (log 4). -/
def CycleInput.anyKey (inp : CycleInput) : Option Key :=
  if inp.keys[inp.keyChoice] then some inp.keyChoice else allKeys.find? fun k => inp.keys[k]

/-- The inputs of the coming cycle (10_state.md R33): those the environment's list gives first, else free values
(log 3). -/
def State.input (s : State) : CycleInput :=
  match s.inputs with
  | inp :: _ => inp
  | [] =>
    { keys := Config.freeKeys s.draws, keyChoice := Config.freeKeyChoice s.draws, rnd := Config.freeRnd s.draws }

/-- `KEYS[k]` for a key number held in a byte; BoundsError above 15 (45_keys_timers.md R231, R232; log 16). -/
def State.keyDown (s : State) (k : Byte) : Except Fault Bool :=
  if h : k.toNat < 16 then .ok s.input.keys[k.toNat] else .error (.boundsError (byteToWord k))

end Sys2Proof.Machine
end

