-- ==== Sys2Proof/Machine/Flags.lean ====
section
/-!
DEFINITION. The flag. `VF = V[15]` is the only one (10_state.md R22): carry, no borrow, the bit shifted out, or
collision, always 0x00 or 0x01, written last and unconditionally (40_cycle.md R131).
-/

namespace Sys2Proof.Machine

/-- The register that doubles as the flag: index 15 (10_state.md R21, R22). -/
def vf : RegIdx := 15

/-- A flag's value: 0x01 or 0x00 (10_state.md R22). -/
def flagByte (f : Bool) : Byte := if f then 0x01#8 else 0x00#8

/-- Carry: the sum exceeds 255 (42_alu.md R166). -/
def carryFlag (a b : Byte) : Bool := decide (255 < a.toNat + b.toNat)

/-- No borrow: the minuend is not below the subtrahend (42_alu.md R167, R169). -/
def noBorrowFlag (a b : Byte) : Bool := decide (b.toNat ≤ a.toNat)

/-- The bit a right shift by one moves out: bit 0 (42_alu.md R168). -/
def shiftRightFlag (a : Byte) : Bool := a.getLsbD 0

/-- The bit a left shift by one moves out: bit 7 (42_alu.md R170). -/
def shiftLeftFlag (a : Byte) : Bool := a.getLsbD 7

/-- `VF <- flag`. -/
def State.setFlag (s : State) (f : Bool) : State := s.setReg vf (flagByte f)

/-- The result to `V[x]`, then the flag to `VF`, last (40_cycle.md R131; log 13). -/
def State.setResultAndFlag (s : State) (x : RegIdx) (result : Byte) (f : Bool) : State :=
  (s.setReg x result).setFlag f

end Sys2Proof.Machine
end

