-- ==== Sys2Proof/Machine/Alu.lean ====
section
/-!
DEFINITION. Register load, arithmetic, logic, shift, random: 6xnn, 7xnn, 8xy0 to 8xy7, 8xyE, Cxnn (42_alu.md R160 to
R172). All arithmetic is modulo 256 on unsigned bytes (R172); operands are read before any write (40_cycle.md R131).
-/

namespace Sys2Proof.Machine

/-- 6xnn, load immediate (R160). -/
def exec6xnn (x : RegIdx) (nn : Byte) (s : State) : Host.Outcome State Fault Refusal :=
  .next (s.setReg x nn)

/-- 7xnn, add immediate; `VF` is not written as a flag (R161). -/
def exec7xnn (x : RegIdx) (nn : Byte) (s : State) : Host.Outcome State Fault Refusal :=
  .next (s.setReg x (s.reg x + nn))

/-- 8xy0, copy register (R162). -/
def exec8xy0 (x y : RegIdx) (s : State) : Host.Outcome State Fault Refusal :=
  .next (s.setReg x (s.reg y))

/-- 8xy1, OR; no flag (R163; log 20). -/
def exec8xy1 (x y : RegIdx) (s : State) : Host.Outcome State Fault Refusal :=
  .next (s.setReg x (s.reg x ||| s.reg y))

/-- 8xy2, AND; no flag (R164; log 20). -/
def exec8xy2 (x y : RegIdx) (s : State) : Host.Outcome State Fault Refusal :=
  .next (s.setReg x (s.reg x &&& s.reg y))

/-- 8xy3, XOR; no flag (R165; log 20). -/
def exec8xy3 (x y : RegIdx) (s : State) : Host.Outcome State Fault Refusal :=
  .next (s.setReg x (s.reg x ^^^ s.reg y))

/-- 8xy4, add with carry flag (R166). -/
def exec8xy4 (x y : RegIdx) (s : State) : Host.Outcome State Fault Refusal :=
  .next (s.setResultAndFlag x (s.reg x + s.reg y) (carryFlag (s.reg x) (s.reg y)))

/-- 8xy5, subtract `Vy` from `Vx` with no-borrow flag (R167). -/
def exec8xy5 (x y : RegIdx) (s : State) : Host.Outcome State Fault Refusal :=
  .next (s.setResultAndFlag x (s.reg x - s.reg y) (noBorrowFlag (s.reg x) (s.reg y)))

/-- 8xy6, shift right in place; `y` is encoded and ignored (R168; log 13). -/
def exec8xy6 (x : RegIdx) (s : State) : Host.Outcome State Fault Refusal :=
  .next (s.setResultAndFlag x (s.reg x >>> 1) (shiftRightFlag (s.reg x)))

/-- 8xy7, subtract `Vx` from `Vy` with no-borrow flag (R169). -/
def exec8xy7 (x y : RegIdx) (s : State) : Host.Outcome State Fault Refusal :=
  .next (s.setResultAndFlag x (s.reg y - s.reg x) (noBorrowFlag (s.reg y) (s.reg x)))

/-- 8xyE, shift left in place; `y` is encoded and ignored (R170; log 13). -/
def exec8xyE (x : RegIdx) (s : State) : Host.Outcome State Fault Refusal :=
  .next (s.setResultAndFlag x (s.reg x <<< 1) (shiftLeftFlag (s.reg x)))

/-- Cxnn, the cycle's random byte under a mask (R171). -/
def execCxnn (x : RegIdx) (nn : Byte) (s : State) : Host.Outcome State Fault Refusal :=
  .next (s.setReg x (s.input.rnd &&& nn))

end Sys2Proof.Machine
end

