-- ==== Sys2Proof/Machine/Control.lean ====
section
/-!
DEFINITION. Control transfer: 00EE, 1nnn, 2nnn, 3xnn, 4xnn, 5xy0, 9xy0, Bnnn (41_control.md R140 to R149). Each meaning
is the execute phase: `PC` is already `npc = pc0 + 2`.
-/

namespace Sys2Proof.Machine

/-- 00EE, return from subroutine (R140). -/
def exec00EE (s : State) : Host.Outcome State Fault Refusal := s.complete s.pop

/-- 1nnn, jump (R141). -/
def exec1nnn (nnn : BitVec 12) (s : State) : Host.Outcome State Fault Refusal :=
  .next { s with pc := addressToWord nnn }

/-- 2nnn, call: the saved address is `npc` (R142). -/
def exec2nnn (nnn : BitVec 12) (s : State) : Host.Outcome State Fault Refusal :=
  s.complete (s.push.map fun t => { t with pc := addressToWord nnn })

/-- 3xnn, skip if register equals immediate (R143). -/
def exec3xnn (x : RegIdx) (nn : Byte) (s : State) : Host.Outcome State Fault Refusal :=
  .next (s.skipIf (s.reg x == nn))

/-- 4xnn, skip if register differs from immediate (R144). -/
def exec4xnn (x : RegIdx) (nn : Byte) (s : State) : Host.Outcome State Fault Refusal :=
  .next (s.skipIf (s.reg x != nn))

/-- 5xy0, skip if registers equal (R145). -/
def exec5xy0 (x y : RegIdx) (s : State) : Host.Outcome State Fault Refusal :=
  .next (s.skipIf (s.reg x == s.reg y))

/-- 9xy0, skip if registers differ (R146). -/
def exec9xy0 (x y : RegIdx) (s : State) : Host.Outcome State Fault Refusal :=
  .next (s.skipIf (s.reg x != s.reg y))

/-- Bnnn, jump with offset `V[0]`: a 16-bit sum, not reduced to 12 bits (R147; log 17). -/
def execBnnn (nnn : BitVec 12) (s : State) : Host.Outcome State Fault Refusal :=
  .next { s with pc := byteToWord (s.reg 0) + addressToWord nnn }

end Sys2Proof.Machine
end

