-- ==== Sys2Proof/Machine/Display.lean ====
section
/-!
DEFINITION. The display surface and the XOR-blit sprite engine: 00E0, Dxyn (44_display.md R210 to R216).
-/

namespace Sys2Proof.Machine

/-- `FB(px mod 64, py mod 32)` for unbounded coordinates (R210, R211). -/
def Framebuffer.pixel (fb : Framebuffer) (px py : Nat) : Bool :=
  (fb[py % 32]'(Nat.mod_lt _ (by decide)))[px % 64]'(Nat.mod_lt _ (by decide))

/-- The framebuffer with the pixel at unbounded coordinates, taken modulo 64 and 32, replaced. -/
def Framebuffer.setPixel (fb : Framebuffer) (px py : Nat) (b : Bool) : Framebuffer :=
  fb.set (py % 32)
    ((fb[py % 32]'(Nat.mod_lt _ (by decide))).set (px % 64) b (Nat.mod_lt _ (by decide)))
    (Nat.mod_lt _ (by decide))

/-- `Toggle` (R211): the pixel XORed with the incoming bit, and whether a set pixel was erased. -/
def Framebuffer.toggle (fb : Framebuffer) (px py : Nat) (b : Bool) : Framebuffer × Bool :=
  (fb.setPixel px py (Bool.xor (fb.pixel px py) b), fb.pixel px py && b)

/-- `Clear` (R212). -/
def Framebuffer.clear (_ : Framebuffer) : Framebuffer := Framebuffer.blank

/-- The eight bits of a sprite row, leftmost (most significant) first (R214). -/
def rowBits (row : Byte) : List Bool :=
  [row.getLsbD 7, row.getLsbD 6, row.getLsbD 5, row.getLsbD 4,
   row.getLsbD 3, row.getLsbD 2, row.getLsbD 1, row.getLsbD 0]

/-- One row of a sprite, its bits toggled at `px`, `px + 1`, ...: the surface, and whether any pixel collided. -/
def Framebuffer.drawBits (fb : Framebuffer) (px py : Nat) : List Bool → Framebuffer × Bool
  | [] => (fb, false)
  | b :: rest =>
    let one := fb.toggle px py b
    let more := one.1.drawBits (px + 1) py rest
    (more.1, one.2 || more.2)

/-- A sprite, its rows drawn at `py`, `py + 1`, ...: the surface, and whether any pixel collided (R214, R215). -/
def Framebuffer.drawRows (fb : Framebuffer) (px py : Nat) : List Byte → Framebuffer × Bool
  | [] => (fb, false)
  | row :: rest =>
    let one := fb.drawBits px py (rowBits row)
    let more := one.1.drawRows px (py + 1) rest
    (more.1, one.2 || more.2)

/-- 00E0, clear display (R213). -/
def exec00E0 (s : State) : Host.Outcome State Fault Refusal :=
  .next { s with fb := s.fb.clear }

/-- The state after a sprite of these rows is drawn at (`V[x]`, `V[y]`): both coordinates are read before `VF` is
written, and `VF` is written last (R214; 40_cycle.md R131; log 13). -/
def State.drawSprite (s : State) (x y : RegIdx) (rows : List Byte) : State :=
  let drawn := s.fb.drawRows (s.reg x).toNat (s.reg y).toNat rows
  State.setFlag { s with fb := drawn.1 } drawn.2

/-- Dxyn, draw sprite (R214). -/
def execDxyn (x y : RegIdx) (n : Fin 16) (s : State) : Host.Outcome State Fault Refusal :=
  s.complete ((s.loadAtI n.val).map fun rows => s.drawSprite x y rows)

end Sys2Proof.Machine
end

