-- ==== Sys2Proof/Machine/Index.lean ====
section
/-!
DEFINITION. Index register, font address, BCD, register store and load: Annn, Fx1E, Fx29, Fx33, Fx55, Fx65
(43_index_memory.md R190 to R196). `I` is never modified by an access.
-/

namespace Sys2Proof.Machine

/-- Annn, load index register (R190). -/
def execAnnn (nnn : BitVec 12) (s : State) : Host.Outcome State Fault Refusal :=
  .next { s with i := addressToWord nnn }

/-- Fx1E, add register to index, modulo 65536, no flag (R191; log 14). -/
def execFx1E (x : RegIdx) (s : State) : Host.Outcome State Fault Refusal :=
  .next { s with i := s.i + byteToWord (s.reg x) }

/-- Fx29, address of font glyph (R192). -/
def execFx29 (x : RegIdx) (s : State) : Host.Outcome State Fault Refusal :=
  .next { s with i := glyphAddress (s.reg x) }

/-- Fx33, store binary-coded decimal (R193). -/
def execFx33 (x : RegIdx) (s : State) : Host.Outcome State Fault Refusal :=
  s.complete (s.storeAtI (bcdDigits (s.reg x)))

/-- Fx55, store registers `V[0]` to `V[x]` (R194). -/
def execFx55 (x : RegIdx) (s : State) : Host.Outcome State Fault Refusal :=
  s.complete (s.storeAtI (s.regsUpTo x))

/-- Fx65, load registers `V[0]` to `V[x]` (R195). -/
def execFx65 (x : RegIdx) (s : State) : Host.Outcome State Fault Refusal :=
  s.complete ((s.loadAtI (x.val + 1)).map fun bytes => { s with v := loadRegs s.v 0 bytes })

end Sys2Proof.Machine
end

