-- ==== Sys2Proof/Machine/KeysTimers.lean ====
section
/-!
DEFINITION. Key input and timers: Ex9E, ExA1, Fx0A, Fx07, Fx15, Fx18 (45_keys_timers.md R230 to R237). The tick of the
same cycle follows and is not part of these meanings (40_cycle.md R126).
-/

namespace Sys2Proof.Machine

/-- Ex9E, skip if key down (R231). -/
def execEx9E (x : RegIdx) (s : State) : Host.Outcome State Fault Refusal :=
  s.complete ((s.keyDown (s.reg x)).map fun down => s.skipIf down)

/-- ExA1, skip if key up (R232). -/
def execExA1 (x : RegIdx) (s : State) : Host.Outcome State Fault Refusal :=
  s.complete ((s.keyDown (s.reg x)).map fun down => s.skipIf (!down))

/-- Fx0A, wait for a key: with none down `PC` goes back to `pc0`, so the same word is fetched next cycle (R233;
log 18). -/
def execFx0A (x : RegIdx) (s : State) : Host.Outcome State Fault Refusal :=
  .next (match s.input.anyKey with
    | none => { s with pc := s.pc - 2#16 }
    | some k => s.setReg x (BitVec.ofNat 8 k.val))

/-- Fx07, read delay timer (R234). -/
def execFx07 (x : RegIdx) (s : State) : Host.Outcome State Fault Refusal :=
  .next (s.setReg x s.dt)

/-- Fx15, set delay timer (R235). -/
def execFx15 (x : RegIdx) (s : State) : Host.Outcome State Fault Refusal :=
  .next { s with dt := s.reg x }

/-- Fx18, set sound timer (R236). -/
def execFx18 (x : RegIdx) (s : State) : Host.Outcome State Fault Refusal :=
  .next { s with st := s.reg x }

end Sys2Proof.Machine
end

