-- ==== Sys2Proof/Machine/Step.lean ====
section
/-! DEFINITION. One cycle request (40_cycle.md R120, R121): fetch, decode, execute, timer tick. -/

namespace Sys2Proof.Machine

/-- One cycle request. In FAULTED nothing happens (R128). Otherwise the word at `PC` is fetched (R122); a fetch out of
memory is a fatal error taken at `pc0 = PC`; a word with no handler is the no-op with the event `WARN` (R125); any
other word runs its handler with `PC = npc` (R123). A cycle that did not fail ticks the timers (R126); one that
failed commits only the fault report (R127). -/
def step (s : State) : Host.Outcome State Fault Refusal :=
  match s.run with
  | .faulted => .next s
  | .running =>
    match s.fetch with
    | .error f => .next (s.raise s.pc f).abandon
    | .ok w =>
      match decode w with
      | .error _ => .next (s.advance.finish w (some w))
      | .ok i =>
        match exec i s.advance with
        | .next t => .next (t.endCycle w)
        | .fault r => .fault r
        | .refused r => .refused r

/-- `s` with the word of an opcode-table row stored at `PC`, high byte first, where the next cycle fetches it. Above
0x0FFE there is nowhere to place it, and the state is as it was (log 22). -/
def State.withFetchWord (s : State) (nbits w : Nat) : State :=
  if s.pc.toNat ≤ 0x0FFE then
    { s with
      mem := s.mem.writeBytes s.pc.toNat [highByte (tableWord nbits w), lowByte (tableWord nbits w)] }
  else s

end Sys2Proof.Machine
end

