-- ==== Sys2Proof/Machine/HostPort.lean ====
section
/-!
DEFINITION. What the host does to the core and sees of it (10_state.md R33, R34; 70_reset_and_hazards.md R290 to R295):
the reset request, the ROM load, the cycle request with its inputs, and the outputs between cycles.
-/

namespace Sys2Proof.Machine

/-- The reset request, honoured between cycles (R290): every piece of the core's state at its reset value, memory and
display included (log 19). What the environment will present next is the environment's, and stays. -/
def State.hostReset (s : State) : State := { State.reset with inputs := s.inputs, draws := s.draws }

/-- What a ROM load reports to its caller (R293). -/
inductive LoadReport where
  | loaded
  /-- ResourceError: the ROM's length (60_exceptions.md R254). -/
  | resourceError (length : Nat)
  deriving DecidableEq, Repr

/-- ROM load (R293): byte `k` to 0x200 + `k`, or, for a ROM of more than 3584 bytes, ResourceError and no change
(log 21). The host may ask for it after a reset and before the first cycle (log 21). -/
def State.loadRom (s : State) (rom : List Byte) : State × LoadReport :=
  if Config.romMax < rom.length then (s, .resourceError rom.length)
  else ({ s with mem := s.mem.writeBytes Config.progBase rom }, .loaded)

/-- The environment presents these inputs to the next cycle (10_state.md R33). -/
def State.present (s : State) (inp : CycleInput) : State := { s with inputs := inp :: s.inputs }

/-- A cycle request with its inputs (R295). -/
def State.requestCycle (s : State) (inp : CycleInput) : Host.Outcome State Fault Refusal := step (s.present inp)

/-- The output `TONE`, the level `ST > 0` (10_state.md R34). -/
def State.tone (s : State) : Bool := decide (0 < s.st.toNat)

/-- A pixel as the host sees it: 0xFF set, 0x00 clear (10_state.md R34). -/
def pixelByte (set : Bool) : Byte := if set then 0xFF#8 else 0x00#8

/-- The framebuffer as the host reads it: 2048 bytes, pixel (`px`, `py`) at `py * 64 + px` (10_state.md R34; log 24). -/
def State.framebufferView (s : State) : List Byte :=
  s.fb.toList.flatMap fun row => row.toList.map pixelByte

end Sys2Proof.Machine
end

