-- ==== Sys2Proof/Safety.lean ====
section
/-!
DEFINITION. The terms claims are stated in: what a safe state is, what a cycle or an instruction leaves unchanged, how
a failed cycle looks, the invariants of the machine, the register access table, and the bit a sprite puts on a pixel.
-/

namespace Sys2Proof.Machine

/-- A safe state: no fatal error has been taken (10_state.md R32). -/
def State.Safe (s : State) : Prop := s.run = .running

/-! ## Frames: what stays as it was from `s` to `t` -/

/-- Every byte of memory reads as before. -/
def MemoryAsBefore (s t : State) : Prop := ∀ a, t.mem.read a = s.mem.read a

/-- Nothing but general registers may differ. -/
def OnlyRegisters (s t : State) : Prop := t = { s with v := t.v } ∧ MemoryAsBefore s t

/-- Nothing but `PC` may differ. -/
def OnlyPc (s t : State) : Prop := t = { s with pc := t.pc } ∧ MemoryAsBefore s t

/-- Nothing but `PC` and general registers may differ. -/
def OnlyPcAndRegisters (s t : State) : Prop := t = { s with pc := t.pc, v := t.v } ∧ MemoryAsBefore s t

/-- Nothing but `PC`, `SP` and the stack entries may differ. -/
def OnlyPcAndStack (s t : State) : Prop :=
  t = { s with pc := t.pc, sp := t.sp, stack := t.stack } ∧ MemoryAsBefore s t

/-- Nothing but `I` may differ. -/
def OnlyIndex (s t : State) : Prop := t = { s with i := t.i } ∧ MemoryAsBefore s t

/-- Nothing but `DT` may differ. -/
def OnlyDelayTimer (s t : State) : Prop := t = { s with dt := t.dt } ∧ MemoryAsBefore s t

/-- Nothing but `ST` may differ. -/
def OnlySoundTimer (s t : State) : Prop := t = { s with st := t.st } ∧ MemoryAsBefore s t

/-- Nothing but the display may differ. -/
def OnlyDisplay (s t : State) : Prop := t = { s with fb := t.fb } ∧ MemoryAsBefore s t

/-- Nothing but the display and general registers may differ. -/
def OnlyDisplayAndRegisters (s t : State) : Prop := t = { s with fb := t.fb, v := t.v } ∧ MemoryAsBefore s t

/-- Nothing but memory may differ, and of memory only the `len` bytes from `base` on. -/
def OnlyBytes (s t : State) (base len : Nat) : Prop :=
  t = { s with mem := t.mem } ∧ ∀ a, a < base ∨ base + len ≤ a → t.mem.read a = s.mem.read a

/-- `t` is `s` with a fatal error taken at `pc0` (60_exceptions.md R255): the fault report is written, `PC` is at
`pc0`, and nothing else changes (log 8, log 9). -/
def FailedAt (s t : State) (pc0 : Word) (cause : BitVec 3) (info : Word) : Prop :=
  t = { s with run := .faulted, faultCause := cause, faultPc := pc0, faultInfo := info, pc := pc0 } ∧
  MemoryAsBefore s t

/-! ## Invariants -/

/-- Memory is canonical (log 23); the fault report agrees with `RUN` (10_state.md R32, R37; 60_exceptions.md R255,
R256): it is clear while RUNNING; in FAULTED it names the instruction at `PC` with a fatal cause and a value that the
cause can report, and no `WARN` stands. -/
def State.Inv (s : State) : Prop :=
  s.mem.wf = true ∧
  (s.run = .running → s.faultCause = 0#3 ∧ s.faultPc = 0x0000#16 ∧ s.faultInfo = 0x0000#16) ∧
  (s.run = .faulted →
    s.faultPc = s.pc ∧ s.warn = none ∧
    ((s.faultCause = 2#3 ∧
        (0x1000 ≤ s.faultInfo.toNat ∨ 16 ≤ s.faultInfo.toNat ∧ s.faultInfo.toNat ≤ 255)) ∨
     (s.faultCause = 3#3 ∧ s.faultInfo.toNat = s.sp.val ∧ (s.sp.val = 0 ∨ s.sp.val = 16))))

/-- `PC` is at most 0x10FE and every return address at most 0x1000 (10_state.md R24; 41_control.md R142). -/
def State.PcBounded (s : State) : Prop :=
  s.pc.toNat ≤ 0x10FE ∧ ∀ k : Fin 16, s.stack[k].toNat ≤ 0x1000

end Sys2Proof.Machine

namespace Sys2Proof

/-! ## The register access table (10_state.md R21, R22) -/

/-- The instruction writes `VF` as a flag (R22). -/
def Instr.writesFlag : Instr → Bool
  | .op8xy4 _ _ | .op8xy5 _ _ | .op8xy6 _ _ | .op8xy7 _ _ | .op8xyE _ _ | .opDxyn _ _ _ => true
  | .op00E0 _ | .op00EE _ | .op1nnn _ | .op2nnn _ | .op3xnn _ _ | .op4xnn _ _ | .op5xy0 _ _ _ | .op6xnn _ _
  | .op7xnn _ _ | .op8xy0 _ _ | .op8xy1 _ _ | .op8xy2 _ _ | .op8xy3 _ _ | .op9xy0 _ _ _ | .opAnnn _ | .opBnnn _
  | .opCxnn _ _ | .opEx9E _ _ | .opExA1 _ _ | .opFx07 _ | .opFx0A _ | .opFx15 _ | .opFx18 _ | .opFx1E _
  | .opFx29 _ | .opFx33 _ | .opFx55 _ | .opFx65 _ => false

/-- The registers an instruction writes as operands: the rows "write `V[x]`" and "write `V[0]` to `V[x]`" of R21. -/
def Instr.writesOperand : Instr → RegIdx → Bool
  | .op6xnn x _, k | .op7xnn x _, k | .op8xy0 x _, k | .op8xy1 x _, k | .op8xy2 x _, k | .op8xy3 x _, k
  | .op8xy4 x _, k | .op8xy5 x _, k | .op8xy6 x _, k | .op8xy7 x _, k | .op8xyE x _, k | .opCxnn x _, k
  | .opFx07 x, k | .opFx0A x, k => k == x
  | .opFx65 x, k => decide (k ≤ x)
  | .op00E0 _, _ | .op00EE _, _ | .op1nnn _, _ | .op2nnn _, _ | .op3xnn _ _, _ | .op4xnn _ _, _ | .op5xy0 _ _ _, _
  | .op9xy0 _ _ _, _ | .opAnnn _, _ | .opBnnn _, _ | .opDxyn _ _ _, _ | .opEx9E _ _, _ | .opExA1 _ _, _
  | .opFx15 _, _ | .opFx18 _, _ | .opFx1E _, _ | .opFx29 _, _ | .opFx33 _, _ | .opFx55 _, _ => false

/-- The registers an instruction may write: its operands, and `VF` where it writes the flag (R21). -/
def Instr.writes (i : Instr) (k : RegIdx) : Bool := i.writesOperand k || (i.writesFlag && k == Machine.vf)

/-- The registers an instruction reads: the rows "read" of R21. -/
def Instr.reads : Instr → RegIdx → Bool
  | .op3xnn x _, k | .op4xnn x _, k | .op7xnn x _, k | .op8xy6 x _, k | .op8xyE x _, k | .opEx9E x _, k
  | .opExA1 x _, k | .opFx15 x, k | .opFx18 x, k | .opFx1E x, k | .opFx29 x, k | .opFx33 x, k => k == x
  | .op8xy0 _ y, k => k == y
  | .op5xy0 x y _, k | .op9xy0 x y _, k | .op8xy1 x y, k | .op8xy2 x y, k | .op8xy3 x y, k | .op8xy4 x y, k
  | .op8xy5 x y, k | .op8xy7 x y, k | .opDxyn x y _, k => k == x || k == y
  | .opBnnn _, k => k == 0
  | .opFx55 x, k => decide (k ≤ x)
  | .op00E0 _, _ | .op00EE _, _ | .op1nnn _, _ | .op2nnn _, _ | .op6xnn _ _, _ | .opAnnn _, _ | .opCxnn _ _, _
  | .opFx07 _, _ | .opFx0A _, _ | .opFx65 _, _ => false

/-- The instructions whose execute phase can take a fatal error (60_exceptions.md R252). -/
def Instr.canFail : Instr → Bool
  | .op00EE _ | .op2nnn _ | .opDxyn _ _ _ | .opEx9E _ _ | .opExA1 _ _ | .opFx33 _ | .opFx55 _ | .opFx65 _ => true
  | .op00E0 _ | .op1nnn _ | .op3xnn _ _ | .op4xnn _ _ | .op5xy0 _ _ _ | .op6xnn _ _ | .op7xnn _ _ | .op8xy0 _ _
  | .op8xy1 _ _ | .op8xy2 _ _ | .op8xy3 _ _ | .op8xy4 _ _ | .op8xy5 _ _ | .op8xy6 _ _ | .op8xy7 _ _ | .op8xyE _ _
  | .op9xy0 _ _ _ | .opAnnn _ | .opBnnn _ | .opCxnn _ _ | .opFx07 _ | .opFx0A _ | .opFx15 _ | .opFx18 _
  | .opFx1E _ | .opFx29 _ => false

/-- The instructions that can leave `PC` elsewhere than at `npc` (10_state.md R24). -/
def Instr.movesPc : Instr → Bool
  | .op00EE _ | .op1nnn _ | .op2nnn _ | .op3xnn _ _ | .op4xnn _ _ | .op5xy0 _ _ _ | .op9xy0 _ _ _ | .opBnnn _
  | .opEx9E _ _ | .opExA1 _ _ | .opFx0A _ => true
  | .op00E0 _ | .op6xnn _ _ | .op7xnn _ _ | .op8xy0 _ _ | .op8xy1 _ _ | .op8xy2 _ _ | .op8xy3 _ _ | .op8xy4 _ _
  | .op8xy5 _ _ | .op8xy6 _ _ | .op8xy7 _ _ | .op8xyE _ _ | .opAnnn _ | .opCxnn _ _ | .opDxyn _ _ _ | .opFx07 _
  | .opFx15 _ | .opFx18 _ | .opFx1E _ | .opFx29 _ | .opFx33 _ | .opFx55 _ | .opFx65 _ => false

end Sys2Proof

namespace Sys2Proof.Machine

/-! ## Sprites -/

/-- The bit that a sprite of `n` rows in memory at `base`, drawn at column `x0` and row `y0`, puts on pixel
(`px`, `py`) of the display (44_display.md R214): row `r` of the sprite lies on display row `(y0 + r) mod 32`, and bit
`7 - c` of it on column `(x0 + c) mod 64`. 256 is a multiple of 64 and of 32, and `x0` and `y0` are bytes. -/
def spriteBit (m : Memory) (base n : Nat) (x0 y0 : Byte) (px py : Nat) : Bool :=
  let c := (px + 256 - x0.toNat) % 64
  let r := (py + 256 - y0.toNat) % 32
  decide (r < n) && decide (c < 8) && (m.read (base + r)).getLsbD (7 - c)

end Sys2Proof.Machine
end

