-- ==== Sys2Proof/Certificates/Slice0/Obligations.lean ====
section
/-!
DEFINITION. The statements about this machine, one `def Obligations.<Name> : Prop` each, listed in OBLIGATIONS.json.
A statement whose docstring names a log entry rests, in the clause it says, on a decision of the spec or of the model
and not on the source. In a statement about `exec`, `PC` is `npc`, the value after fetch (40_cycle.md R123), so the
instruction stands at `PC - 2`; in one about `step`, `PC` is where the word is fetched.
-/

open Sys2Proof Sys2Proof.Machine

/-! ## Encoding and decoding -/

/-- 30_encoding.md R91, R92, R102: for every instruction with every operand at every value, decoding its word gives it
back. That this holds of alias words too, with every undecoded digit at every value, is decision D1 (log 10). -/
def Obligations.DecodeOfEncodeIsTheInstruction : Prop :=
  ∀ i : Instr, decode (encode i) = .ok i

/-- The other direction: a word with a handler is the word of the instruction it decodes to, so that decoding drops no
bit and no word is read as another. That alias words have a handler, and keep their undecoded digits, is decision D1
(log 10). -/
def Obligations.EncodeOfDecodedWordIsTheWord : Prop :=
  ∀ (w : Word) (i : Instr), decode w = .ok i → encode i = w

/-- 30_encoding.md R94, R106: every word either is accepted by the mask and match of exactly one row of the opcode map,
and decodes to an instruction of that row, or is accepted by none and is rejected by name. The partial decode is
decision D1 (log 10). -/
def Obligations.DecodeFollowsTheOpcodeMap : Prop :=
  ∀ w : Word,
    (∃ i, decode w = .ok i ∧ ∀ j : Instr, j.row.accepts w = true ↔ j.row = i.row) ∨
    (decode w = .error (.noHandler w) ∧ ∀ j : Instr, j.row.accepts w = false)

/-- 30_encoding.md R95, R96, R97, R98: the second level of decode, sub-opcode by sub-opcode (decision D1, log 10). -/
def Obligations.SecondLevelDecodeSelectsHandlers : Prop :=
  (∀ w : Word, opOf w = 0x0#4 →
    (lowNibbleOf w = 0x0#4 → decode w = .ok (.op00E0 (midOf w))) ∧
    (lowNibbleOf w = 0xE#4 → decode w = .ok (.op00EE (midOf w))) ∧
    (lowNibbleOf w ∉ [0x0#4, 0xE#4] → decode w = .error (.noHandler w))) ∧
  (∀ w : Word, opOf w = 0x8#4 →
    (lowNibbleOf w = 0x0#4 → decode w = .ok (.op8xy0 (xOf w) (yOf w))) ∧
    (lowNibbleOf w = 0x1#4 → decode w = .ok (.op8xy1 (xOf w) (yOf w))) ∧
    (lowNibbleOf w = 0x2#4 → decode w = .ok (.op8xy2 (xOf w) (yOf w))) ∧
    (lowNibbleOf w = 0x3#4 → decode w = .ok (.op8xy3 (xOf w) (yOf w))) ∧
    (lowNibbleOf w = 0x4#4 → decode w = .ok (.op8xy4 (xOf w) (yOf w))) ∧
    (lowNibbleOf w = 0x5#4 → decode w = .ok (.op8xy5 (xOf w) (yOf w))) ∧
    (lowNibbleOf w = 0x6#4 → decode w = .ok (.op8xy6 (xOf w) (yOf w))) ∧
    (lowNibbleOf w = 0x7#4 → decode w = .ok (.op8xy7 (xOf w) (yOf w))) ∧
    (lowNibbleOf w = 0xE#4 → decode w = .ok (.op8xyE (xOf w) (yOf w))) ∧
    (lowNibbleOf w ∈ [0x8#4, 0x9#4, 0xA#4, 0xB#4, 0xC#4, 0xD#4, 0xF#4] → decode w = .error (.noHandler w))) ∧
  (∀ w : Word, opOf w = 0xE#4 →
    (lowNibbleOf w = 0xE#4 → decode w = .ok (.opEx9E (xOf w) (yDigitOf w))) ∧
    (lowNibbleOf w = 0x1#4 → decode w = .ok (.opExA1 (xOf w) (yDigitOf w))) ∧
    (lowNibbleOf w ∉ [0xE#4, 0x1#4] → decode w = .error (.noHandler w))) ∧
  (∀ w : Word, opOf w = 0xF#4 →
    (nnOf w = 0x07#8 → decode w = .ok (.opFx07 (xOf w))) ∧
    (nnOf w = 0x0A#8 → decode w = .ok (.opFx0A (xOf w))) ∧
    (nnOf w = 0x15#8 → decode w = .ok (.opFx15 (xOf w))) ∧
    (nnOf w = 0x18#8 → decode w = .ok (.opFx18 (xOf w))) ∧
    (nnOf w = 0x1E#8 → decode w = .ok (.opFx1E (xOf w))) ∧
    (nnOf w = 0x29#8 → decode w = .ok (.opFx29 (xOf w))) ∧
    (nnOf w = 0x33#8 → decode w = .ok (.opFx33 (xOf w))) ∧
    (nnOf w = 0x55#8 → decode w = .ok (.opFx55 (xOf w))) ∧
    (nnOf w = 0x65#8 → decode w = .ok (.opFx65 (xOf w))) ∧
    (nnOf w ∉ [0x07#8, 0x0A#8, 0x15#8, 0x18#8, 0x1E#8, 0x29#8, 0x33#8, 0x55#8, 0x65#8] →
      decode w = .error (.noHandler w)))

/-- 30_encoding.md R101, R102: an instruction is well-formed exactly when its word matches its row's printed pattern
digit for digit; its canonical form is well-formed, has the same row, is itself when it was well-formed already, and an
alias executes exactly as it (decision D1, log 10). -/
def Obligations.AliasWordsRunAsTheCanonicalInstruction : Prop :=
  ∀ i : Instr,
    (i.wellFormed = true ↔ i.row.prints (encode i) = true) ∧
    i.canonical.wellFormed = true ∧ i.canonical.row = i.row ∧ (i.wellFormed = true → i.canonical = i) ∧
    ∀ s : State, exec i s = exec i.canonical s

/-- Words written out from the patterns of 30_encoding.md R106 and from the alias and no-handler examples of
R100 and R101. That the alias words 0x0000, 0x012E, 0x5123 and 0xE1FE decode is decision D1 (log 10); that the decoder
rejects 0x8008 and 0xF075 by name is the model's own form of their having no handler (log 11, DEDUCED). -/
def Obligations.WrittenOutWordsDecode : Prop :=
  decode 0x00E0#16 = .ok (.op00E0 0x0E#8) ∧ decode 0x00EE#16 = .ok (.op00EE 0x0E#8) ∧
  decode 0x0000#16 = .ok (.op00E0 0x00#8) ∧ decode 0x012E#16 = .ok (.op00EE 0x12#8) ∧
  decode 0x1ABC#16 = .ok (.op1nnn 0xABC#12) ∧ decode 0x3F01#16 = .ok (.op3xnn 15 0x01#8) ∧
  decode 0x5123#16 = .ok (.op5xy0 1 2 0x3#4) ∧ decode 0x8127#16 = .ok (.op8xy7 1 2) ∧
  decode 0x8F0E#16 = .ok (.op8xyE 15 0) ∧ decode 0xBFFF#16 = .ok (.opBnnn 0xFFF#12) ∧
  decode 0xD01F#16 = .ok (.opDxyn 0 1 15) ∧ decode 0xE1FE#16 = .ok (.opEx9E 1 0xF#4) ∧
  decode 0xE2A1#16 = .ok (.opExA1 2 0xA#4) ∧ decode 0xF365#16 = .ok (.opFx65 3) ∧
  decode 0x8008#16 = .error (.noHandler 0x8008#16) ∧ decode 0xF075#16 = .error (.noHandler 0xF075#16)

/-! ## The cycle -/

/-- 40_cycle.md R121 to R124, R126, R127: when the bytes at `PC` decode to an instruction, the cycle runs it with `PC`
advanced by 2; that an alias word decodes and runs is decision D1 (log 10). If it takes no fatal error, the timers tick,
`IR` holds the word (log 6) and no `WARN` stands (log 5). If it takes one, no timer ticks and `IR` is not latched:
decision D4 (log 9). Either way the cycle's input is used up (log 3). -/
def Obligations.StepRunsTheDecodedInstruction : Prop :=
  ∀ (s : State) (i : Instr) (w : Word), s.run = .running → s.pc.toNat ≤ 0x0FFE →
    w = wordOfBytes (s.mem.read s.pc.toNat) (s.mem.read (s.pc.toNat + 1)) → decode w = .ok i →
    ∃ t, exec i { s with pc := s.pc + 2#16 } = .next t ∧
      (t.run = .running →
        step s = .next (State.consumeInput
          { t with dt := tickTimer t.dt, st := tickTimer t.st, ir := w, warn := none })) ∧
      (t.run = .faulted → step s = .next (State.consumeInput { t with warn := none }))

/-- 40_cycle.md R122: a fetch with `PC` above 0x0FFE is a BoundsError; the value reported is 0x1000 when `PC` is
0x0FFF and `PC` itself above (decision D22, log 25). The cycle changes nothing else (decision D4, log 9), but for the
model's own fields. -/
def Obligations.FetchOutsideMemoryIsABoundsError : Prop :=
  ∀ s : State, s.run = .running → 0x0FFE < s.pc.toNat →
    ∃ t, FailedAt s t s.pc 2#3 (if s.pc = 0x0FFF#16 then 0x1000#16 else s.pc) ∧
      step s = .next (State.consumeInput { t with warn := none })

/-- 40_cycle.md R125: a word with no handler changes no state, and the cycle emits `WARN` with the word (decision D21,
log 5, log 11), latches `IR` (log 6), advances `PC` by 2 and ticks the timers. -/
def Obligations.UnhandledWordIsANoOpWithWarning : Prop :=
  ∀ (s : State) (w : Word), s.run = .running → s.pc.toNat ≤ 0x0FFE →
    w = wordOfBytes (s.mem.read s.pc.toNat) (s.mem.read (s.pc.toNat + 1)) → decode w = .error (.noHandler w) →
    ∃ t, step s = .next t ∧ t.warn = some w ∧ t.ir = w ∧ t.pc = s.pc + 2#16 ∧
      t.dt.toNat = s.dt.toNat - 1 ∧ t.st.toNat = s.st.toNat - 1 ∧ MemoryAsBefore s t ∧
      t = { s with
        warn := t.warn, ir := t.ir, pc := t.pc, dt := t.dt, st := t.st, inputs := t.inputs, draws := t.draws }

/-- 40_cycle.md R128, decision D5 (log 8): in FAULTED a cycle request changes nothing at all, however many are made. -/
def Obligations.FaultedCoreIgnoresCycleRequests : Prop :=
  ∀ (s : State) (k : Nat), s.run = .faulted → Sys2Proof.core.run k s = .next s

/-- 70_reset_and_hazards.md R303, 60_exceptions.md R250: every cycle request is answered by a next state, from every
state whatever; nothing stops the machine and nothing is refused. -/
def Obligations.EveryCycleRequestCompletes : Prop :=
  ∀ s : State, ∃ t, step s = .next t

/-- 40_cycle.md R126: in every completed cycle each timer that was not written loses one count and stays at 0 once
there; a timer written in the cycle has lost one count already; Fx07 reads the count before the tick. -/
def Obligations.TimersTickOncePerCompletedCycle : Prop :=
  ∀ (s t : State) (w : Word), s.run = .running → s.pc.toNat ≤ 0x0FFE →
    w = wordOfBytes (s.mem.read s.pc.toNat) (s.mem.read (s.pc.toNat + 1)) → step s = .next t → t.run = .running →
    ((∀ x, decode w ≠ .ok (.opFx15 x)) → t.dt.toNat = s.dt.toNat - 1) ∧
    (∀ x, decode w = .ok (.opFx15 x) → t.dt.toNat = (s.reg x).toNat - 1) ∧
    ((∀ x, decode w ≠ .ok (.opFx18 x)) → t.st.toNat = s.st.toNat - 1) ∧
    (∀ x, decode w = .ok (.opFx18 x) → t.st.toNat = (s.reg x).toNat - 1) ∧
    (∀ x, decode w = .ok (.opFx07 x) → t.reg x = s.dt)

/-- 60_exceptions.md R251, R255, R256, decisions D3 and D4 (log 8, log 9): a cycle that fails commits only the fault
report, which names the instruction at `PC`; the cause is BoundsError with an address outside memory or a key number
above 15, or StackError with `SP` at 0 or 16. No timer ticks and no `WARN` stands. -/
def Obligations.FailedCycleCommitsOnlyTheReport : Prop :=
  ∀ s t : State, s.run = .running → step s = .next t → t.run = .faulted →
    t = { s with
      run := .faulted, faultCause := t.faultCause, faultPc := s.pc, faultInfo := t.faultInfo, warn := none,
      inputs := t.inputs, draws := t.draws } ∧
    MemoryAsBefore s t ∧
    ((t.faultCause = 2#3 ∧
        (0x1000 ≤ t.faultInfo.toNat ∨ 16 ≤ t.faultInfo.toNat ∧ t.faultInfo.toNat ≤ 255)) ∨
     (t.faultCause = 3#3 ∧ t.faultInfo.toNat = s.sp.val ∧ (s.sp.val = 0 ∨ s.sp.val = 16)))

/-- 60_exceptions.md R252: only 00EE, 2nnn, Dxyn, Ex9E, ExA1, Fx33, Fx55 and Fx65 can take a fatal error in their
execute phase; every other instruction leaves a running core running. -/
def Obligations.OnlyListedInstructionsFail : Prop :=
  ∀ (i : Instr) (s : State), s.run = .running → i.canFail = false → ∃ t, exec i s = .next t ∧ t.run = .running

/-- 40_cycle.md R130: of the inputs of a cycle, Cxnn reads `RND` alone, Ex9E and ExA1 the key `V[x]` alone, Fx0A
`ANYKEY` alone, and every other instruction none: with inputs that agree on what the instruction reads, it does the
same. -/
def Obligations.InstructionsReadOnlyTheirInputs : Prop :=
  ∀ (i : Instr) (s : State) (a b : CycleInput),
    (∀ x nn, i = .opCxnn x nn → a.rnd = b.rnd) →
    (∀ x und, i = .opEx9E x und ∨ i = .opExA1 x und →
      ∀ k : Key, (s.reg x).toNat = k.val → a.keys[k] = b.keys[k]) →
    (∀ x, i = .opFx0A x → a.anyKey = b.anyKey) →
    ∃ t : State, exec i (s.present a) = .next (t.present a) ∧ exec i (s.present b) = .next (t.present b)

/-! ## Whole-machine frames -/

/-- 10_state.md R21, R22: an instruction changes no general register outside the access table's "write" rows. That 8xy1,
8xy2 and 8xy3 do not write `VF` as a flag is decision D29 (log 20). -/
def Obligations.RegistersAreWrittenAsTheAccessTableSays : Prop :=
  ∀ (i : Instr) (s : State) (k : RegIdx), i.writes k = false → ∃ t, exec i s = .next t ∧ t.reg k = s.reg k

/-- 10_state.md R21: an instruction's effect does not depend on a register outside the access table's "read" rows: with
another value in it, everything else comes out the same, and the register itself is written with the same value or left
alone; it is left alone where the access table has no "write" row. That 8xy1, 8xy2 and 8xy3 leave `VF` alone is decision
D29 (log 20). -/
def Obligations.RegistersAreReadAsTheAccessTableSays : Prop :=
  ∀ (i : Instr) (s : State) (k : RegIdx) (b : Byte), i.reads k = false →
    ∃ t u, exec i s = .next t ∧ exec i (s.setReg k b) = .next u ∧
      u = t.setReg k (u.reg k) ∧ (i.writes k = false → u.reg k = b) ∧
      (u.reg k = t.reg k ∨ t.reg k = s.reg k ∧ u.reg k = b)

/-- 10_state.md R22: after an instruction that writes the flag and takes no fatal error, `VF` is 0x00 or 0x01. For 8xy6
and 8xyE with `x` = 15 this rests on the flag being written last, decision D16, and for Dxyn with `n` = 0 on decision
D17 (log 13). -/
def Obligations.FlagIsZeroOrOne : Prop :=
  ∀ (i : Instr) (s : State), i.writesFlag = true →
    ∃ t, exec i s = .next t ∧ (t.run = .running → t.reg vf = 0x00#8 ∨ t.reg vf = 0x01#8)

/-- 44_display.md R216: only 00E0 and Dxyn change the display. -/
def Obligations.OnlyClearAndDrawChangeTheDisplay : Prop :=
  ∀ (i : Instr) (s : State), (∀ und, i ≠ .op00E0 und) → (∀ x y n, i ≠ .opDxyn x y n) →
    ∃ t, exec i s = .next t ∧ t.fb = s.fb

/-- 20_memory.md R60: only Fx33 and Fx55 change memory. -/
def Obligations.OnlyStoresChangeMemory : Prop :=
  ∀ (i : Instr) (s : State), (∀ x, i ≠ .opFx33 x) → (∀ x, i ≠ .opFx55 x) →
    ∃ t, exec i s = .next t ∧ t.mem = s.mem ∧ MemoryAsBefore s t

/-- 10_state.md R25, R26: only 2nnn and 00EE change `SP`, and only 2nnn changes a stack entry, the one at `SP`. -/
def Obligations.OnlyCallAndReturnChangeTheStack : Prop :=
  ∀ (i : Instr) (s : State), ∃ t, exec i s = .next t ∧
    ((∀ nnn, i ≠ .op2nnn nnn) → (∀ und, i ≠ .op00EE und) → t.sp = s.sp) ∧
    ((∀ nnn, i ≠ .op2nnn nnn) → t.stack = s.stack) ∧
    (∀ k : Fin 16, k.val ≠ s.sp.val → t.stack[k] = s.stack[k])

/-- 10_state.md R23, R24, R27, R28, R29: only Annn, Fx1E and Fx29 change `I`; only Fx15 sets `DT` and only Fx18 sets
`ST` in the execute phase; no execute phase touches `IR`, nor the model's own fields; and `PC` stays at `npc` unless
the instruction transfers control, waits for a key, or fails. -/
def Obligations.SpecialRegistersHaveTheirWriters : Prop :=
  ∀ (i : Instr) (s : State), ∃ t, exec i s = .next t ∧
    ((∀ nnn, i ≠ .opAnnn nnn) → (∀ x, i ≠ .opFx1E x) → (∀ x, i ≠ .opFx29 x) → t.i = s.i) ∧
    ((∀ x, i ≠ .opFx15 x) → t.dt = s.dt) ∧ ((∀ x, i ≠ .opFx18 x) → t.st = s.st) ∧
    t.ir = s.ir ∧ t.inputs = s.inputs ∧ t.draws = s.draws ∧ t.warn = s.warn ∧
    (i.movesPc = false → t.run = .running → t.pc = s.pc)

/-! ## Reset and invariants -/

/-- 10_state.md R36. `PC`, `SP`, `RUN` and the zero of memory outside the font are the source's; the zero of `V`, `I`,
`DT`, `ST`, `STACK`, `IR` and `FB` is decision D6 (log 1), the cleared report decision D3 (log 8); FONT is the parameter
Config.font (log 2), of which only the length is said. -/
def Obligations.ResetState : Prop :=
  State.reset.pc = 0x0200#16 ∧ State.reset.sp = 0 ∧ State.reset.run = .running ∧
  (∀ k, State.reset.reg k = 0x00#8) ∧ State.reset.i = 0x0000#16 ∧ State.reset.dt = 0x00#8 ∧
  State.reset.st = 0x00#8 ∧ (∀ k : Fin 16, State.reset.stack[k] = 0x0000#16) ∧ State.reset.ir = 0x0000#16 ∧
  (∀ px py, State.reset.fb.pixel px py = false) ∧
  State.reset.faultCause = 0#3 ∧ State.reset.faultPc = 0x0000#16 ∧ State.reset.faultInfo = 0x0000#16 ∧
  Config.font.length = 80 ∧
  (∀ d, d < 80 → Config.font[d]? = some (State.reset.mem.read (0x050 + d))) ∧
  (∀ a, a < 0x050 ∨ 0x0A0 ≤ a → State.reset.mem.read a = 0x00#8)

/-- The invariants hold at reset. For the bound on the return addresses this rests on the zero `STACK` of decision D6
(log 1); for the clear fault report on decision D3 (log 8); memory lists nothing (log 23). -/
def Obligations.InvariantsHoldAtReset : Prop := State.reset.Inv ∧ State.reset.PcBounded

/-- 10_state.md R32, R37 and log 23: every step from a state with the invariant gives a state with it: memory stays
canonical, the fault report agrees with `RUN`, and in FAULTED it names the instruction at `PC` with a cause and a value
that cause can report (decisions D3 and D4, log 8, log 9; a key number is decision D12, log 16). -/
def Obligations.StepKeepsTheInvariant : Prop :=
  ∀ s t : State, s.Inv → step s = .next t → t.Inv

/-- 10_state.md R24, decision D23 (log 17): every step keeps `PC` at most 0x10FE and every return address at most
0x1000. -/
def Obligations.StepKeepsPcBounded : Prop :=
  ∀ s t : State, s.PcBounded → step s = .next t → t.PcBounded

/-! ## Control transfer -/

/-- 41_control.md R141: 1nnn. -/
def Obligations.JumpSetsPc : Prop :=
  (∀ w : Word, opOf w = 0x1#4 → decode w = .ok (.op1nnn (nnnOf w))) ∧
  ∀ (nnn : BitVec 12) (s : State), ∃ t, exec (.op1nnn nnn) s = .next t ∧ t.pc.toNat = nnn.toNat ∧ OnlyPc s t

/-- 41_control.md R147: Bnnn adds `V[0]`; that the sum is not reduced to 12 bits is decision D23 (log 17). -/
def Obligations.JumpWithOffsetAddsRegisterZero : Prop :=
  (∀ w : Word, opOf w = 0xB#4 → decode w = .ok (.opBnnn (nnnOf w))) ∧
  ∀ (nnn : BitVec 12) (s : State), ∃ t, exec (.opBnnn nnn) s = .next t ∧
    t.pc.toNat = (s.reg 0).toNat + nnn.toNat ∧ OnlyPc s t

/-- 41_control.md R142: 2nnn saves `npc` at `STACK[SP]`; with 16 entries on the stack it is a StackError, whose report
is decision D3 and whose all-or-nothing is D4 (log 8, log 9). -/
def Obligations.CallPushesTheReturnAddress : Prop :=
  (∀ w : Word, opOf w = 0x2#4 → decode w = .ok (.op2nnn (nnnOf w))) ∧
  ∀ (nnn : BitVec 12) (s : State),
    (s.sp.val < 16 → ∃ t, exec (.op2nnn nnn) s = .next t ∧
      t.pc.toNat = nnn.toNat ∧ t.sp.val = s.sp.val + 1 ∧
      (∀ k : Fin 16, t.stack[k] = if k.val = s.sp.val then s.pc else s.stack[k]) ∧ OnlyPcAndStack s t) ∧
    (s.sp.val = 16 → ∃ t, exec (.op2nnn nnn) s = .next t ∧ FailedAt s t (s.pc - 2#16) 3#3 0x0010#16)

/-- 41_control.md R140: 00EE reads `STACK[SP - 1]` and leaves the entry; on an empty stack it is a StackError (decisions
D3 and D4, log 8, log 9). That every word of family 0 with low digit E, whatever its other digits, is 00EE and runs as
it, is decision D1 (log 10). -/
def Obligations.ReturnPopsTheReturnAddress : Prop :=
  (∀ w : Word, opOf w = 0x0#4 → lowNibbleOf w = 0xE#4 → decode w = .ok (.op00EE (midOf w))) ∧
  ∀ (und : BitVec 8) (s : State),
    (∀ k : Fin 16, s.sp.val = k.val + 1 → ∃ t, exec (.op00EE und) s = .next t ∧
      t.pc = s.stack[k] ∧ t.sp.val = k.val ∧ t.stack = s.stack ∧ OnlyPcAndStack s t) ∧
    (s.sp.val = 0 → ∃ t, exec (.op00EE und) s = .next t ∧ FailedAt s t (s.pc - 2#16) 3#3 0x0000#16)

/-- The source's property S5 (95_test_vectors.md): a return from the state a call left, with anything done in between
that leaves `SP` and the stack alone, puts `PC` back to the address after the call and `SP` to its value before it. That
an alias of 00EE does so too is decision D1 (log 10). -/
def Obligations.ReturnAfterCallRestoresPcAndSp : Prop :=
  ∀ (nnn : BitVec 12) (und : BitVec 8) (s : State), s.sp.val < 16 →
    ∃ t, exec (.op2nnn nnn) s = .next t ∧
      ∀ r : State, r.sp = t.sp → r.stack = t.stack →
        ∃ u, exec (.op00EE und) r = .next u ∧ u.pc = s.pc ∧ u.sp = s.sp ∧
          ∀ k : Fin 16, k.val ≠ s.sp.val → u.stack[k] = s.stack[k]

/-- 41_control.md R143, R144: the two skips on an immediate: `PC` goes 2 further exactly when the condition holds, and
nothing else changes. -/
def Obligations.SkipsCompareWithAnImmediate : Prop :=
  (∀ w : Word, opOf w = 0x3#4 → decode w = .ok (.op3xnn (xOf w) (nnOf w))) ∧
  (∀ w : Word, opOf w = 0x4#4 → decode w = .ok (.op4xnn (xOf w) (nnOf w))) ∧
  ∀ (x : RegIdx) (nn : Byte) (s : State),
    (∃ t, exec (.op3xnn x nn) s = .next t ∧
      t.pc = (if (s.reg x).toNat = nn.toNat then s.pc + 2#16 else s.pc) ∧ OnlyPc s t) ∧
    (∃ t, exec (.op4xnn x nn) s = .next t ∧
      t.pc = (if (s.reg x).toNat = nn.toNat then s.pc else s.pc + 2#16) ∧ OnlyPc s t)

/-- 41_control.md R145, R146: the two skips on a second register; that the low digit of the word is not looked at is
decision D1 (log 10). -/
def Obligations.SkipsCompareTwoRegisters : Prop :=
  (∀ w : Word, opOf w = 0x5#4 → decode w = .ok (.op5xy0 (xOf w) (yOf w) (lowNibbleOf w))) ∧
  (∀ w : Word, opOf w = 0x9#4 → decode w = .ok (.op9xy0 (xOf w) (yOf w) (lowNibbleOf w))) ∧
  ∀ (x y : RegIdx) (und : BitVec 4) (s : State),
    (∃ t, exec (.op5xy0 x y und) s = .next t ∧
      t.pc = (if (s.reg x).toNat = (s.reg y).toNat then s.pc + 2#16 else s.pc) ∧ OnlyPc s t) ∧
    (∃ t, exec (.op9xy0 x y und) s = .next t ∧
      t.pc = (if (s.reg x).toNat = (s.reg y).toNat then s.pc else s.pc + 2#16) ∧ OnlyPc s t)

/-! ## Load, arithmetic, logic, shift, random -/

/-- 42_alu.md R160, R161: 6xnn and 7xnn write `V[x]` alone; the addition is modulo 256 and `VF` is no flag here. -/
def Obligations.LoadAndAddImmediate : Prop :=
  (∀ w : Word, opOf w = 0x6#4 → decode w = .ok (.op6xnn (xOf w) (nnOf w))) ∧
  (∀ w : Word, opOf w = 0x7#4 → decode w = .ok (.op7xnn (xOf w) (nnOf w))) ∧
  ∀ (x : RegIdx) (nn : Byte) (s : State),
    (∃ t, exec (.op6xnn x nn) s = .next t ∧
      t.reg x = nn ∧ (∀ k, k ≠ x → t.reg k = s.reg k) ∧ OnlyRegisters s t) ∧
    (∃ t, exec (.op7xnn x nn) s = .next t ∧
      (t.reg x).toNat = ((s.reg x).toNat + nn.toNat) % 256 ∧ (∀ k, k ≠ x → t.reg k = s.reg k) ∧ OnlyRegisters s t)

/-- 42_alu.md R162: 8xy0. -/
def Obligations.CopyRegister : Prop :=
  (∀ w : Word, opOf w = 0x8#4 → lowNibbleOf w = 0x0#4 → decode w = .ok (.op8xy0 (xOf w) (yOf w))) ∧
  ∀ (x y : RegIdx) (s : State), ∃ t, exec (.op8xy0 x y) s = .next t ∧
    t.reg x = s.reg y ∧ (∀ k, k ≠ x → t.reg k = s.reg k) ∧ OnlyRegisters s t

/-- 42_alu.md R163 to R165: 8xy1, 8xy2, 8xy3, bit by bit; that `VF` is left alone is decision D29 (log 20). -/
def Obligations.LogicalOperationsBitByBit : Prop :=
  ∀ (x y : RegIdx) (s : State),
    (∃ t, exec (.op8xy1 x y) s = .next t ∧
      (∀ b, (t.reg x).getLsbD b = ((s.reg x).getLsbD b || (s.reg y).getLsbD b)) ∧
      (∀ k, k ≠ x → t.reg k = s.reg k) ∧ OnlyRegisters s t) ∧
    (∃ t, exec (.op8xy2 x y) s = .next t ∧
      (∀ b, (t.reg x).getLsbD b = ((s.reg x).getLsbD b && (s.reg y).getLsbD b)) ∧
      (∀ k, k ≠ x → t.reg k = s.reg k) ∧ OnlyRegisters s t) ∧
    (∃ t, exec (.op8xy3 x y) s = .next t ∧
      (∀ b, (t.reg x).getLsbD b = Bool.xor ((s.reg x).getLsbD b) ((s.reg y).getLsbD b)) ∧
      (∀ k, k ≠ x → t.reg k = s.reg k) ∧ OnlyRegisters s t)

/-- 42_alu.md R166: 8xy4; the carry goes to `VF` last, so that with `x = 15` the sum is lost. -/
def Obligations.AddWithCarryFlag : Prop :=
  (∀ w : Word, opOf w = 0x8#4 → lowNibbleOf w = 0x4#4 → decode w = .ok (.op8xy4 (xOf w) (yOf w))) ∧
  ∀ (x y : RegIdx) (s : State), ∃ t, exec (.op8xy4 x y) s = .next t ∧
    (x ≠ 15 → (t.reg x).toNat = ((s.reg x).toNat + (s.reg y).toNat) % 256) ∧
    t.reg 15 = (if 255 < (s.reg x).toNat + (s.reg y).toNat then 0x01#8 else 0x00#8) ∧
    (∀ k, k ≠ x → k ≠ 15 → t.reg k = s.reg k) ∧ OnlyRegisters s t

/-- 42_alu.md R167, R169: 8xy5 and 8xy7; `VF` is 1 when there is no borrow, equality included, and is written last. -/
def Obligations.SubtractWithNoBorrowFlag : Prop :=
  (∀ w : Word, opOf w = 0x8#4 → lowNibbleOf w = 0x5#4 → decode w = .ok (.op8xy5 (xOf w) (yOf w))) ∧
  (∀ w : Word, opOf w = 0x8#4 → lowNibbleOf w = 0x7#4 → decode w = .ok (.op8xy7 (xOf w) (yOf w))) ∧
  ∀ (x y : RegIdx) (s : State),
    (∃ t, exec (.op8xy5 x y) s = .next t ∧
      (x ≠ 15 → (t.reg x).toNat = ((s.reg x).toNat + 256 - (s.reg y).toNat) % 256) ∧
      t.reg 15 = (if (s.reg x).toNat ≥ (s.reg y).toNat then 0x01#8 else 0x00#8) ∧
      (∀ k, k ≠ x → k ≠ 15 → t.reg k = s.reg k) ∧ OnlyRegisters s t) ∧
    (∃ t, exec (.op8xy7 x y) s = .next t ∧
      (x ≠ 15 → (t.reg x).toNat = ((s.reg y).toNat + 256 - (s.reg x).toNat) % 256) ∧
      t.reg 15 = (if (s.reg y).toNat ≥ (s.reg x).toNat then 0x01#8 else 0x00#8) ∧
      (∀ k, k ≠ x → k ≠ 15 → t.reg k = s.reg k) ∧ OnlyRegisters s t)

/-- 42_alu.md R168, R170: 8xy6 and 8xyE shift `V[x]` by one, whatever `y` is; that the flag is written after the result
with `x = 15` too is decision D16 (log 13). -/
def Obligations.ShiftsMoveOneBitIntoTheFlag : Prop :=
  ∀ (x y : RegIdx) (s : State),
    (∃ t, exec (.op8xy6 x y) s = .next t ∧
      (x ≠ 15 → (t.reg x).toNat = (s.reg x).toNat / 2) ∧ (t.reg 15).toNat = (s.reg x).toNat % 2 ∧
      (∀ k, k ≠ x → k ≠ 15 → t.reg k = s.reg k) ∧ OnlyRegisters s t) ∧
    (∃ t, exec (.op8xyE x y) s = .next t ∧
      (x ≠ 15 → (t.reg x).toNat = 2 * (s.reg x).toNat % 256) ∧ (t.reg 15).toNat = (s.reg x).toNat / 128 ∧
      (∀ k, k ≠ x → k ≠ 15 → t.reg k = s.reg k) ∧ OnlyRegisters s t)

/-- 42_alu.md R171: Cxnn, for every byte the environment can present (decision D13, log 3). -/
def Obligations.RandomByteUnderMask : Prop :=
  (∀ w : Word, opOf w = 0xC#4 → decode w = .ok (.opCxnn (xOf w) (nnOf w))) ∧
  ∀ (x : RegIdx) (nn : Byte) (s : State), ∃ t, exec (.opCxnn x nn) s = .next t ∧
    (∀ b, (t.reg x).getLsbD b = (s.input.rnd.getLsbD b && nn.getLsbD b)) ∧
    (∀ k, k ≠ x → t.reg k = s.reg k) ∧ OnlyRegisters s t

/-! ## Index register and memory -/

/-- 43_index_memory.md R190: Annn. -/
def Obligations.LoadIndexRegister : Prop :=
  (∀ w : Word, opOf w = 0xA#4 → decode w = .ok (.opAnnn (nnnOf w))) ∧
  ∀ (nnn : BitVec 12) (s : State), ∃ t, exec (.opAnnn nnn) s = .next t ∧ t.i.toNat = nnn.toNat ∧ OnlyIndex s t

/-- 43_index_memory.md R191: Fx1E sets no flag; the wrap modulo 65536 is decision D14 (log 14). -/
def Obligations.AddRegisterToIndex : Prop :=
  ∀ (x : RegIdx) (s : State), ∃ t, exec (.opFx1E x) s = .next t ∧
    t.i.toNat = (s.i.toNat + (s.reg x).toNat) % 65536 ∧ OnlyIndex s t

/-- 43_index_memory.md R192: Fx29; that the whole byte is used above 15 is decision D15 (log 15). -/
def Obligations.GlyphAddressFromRegister : Prop :=
  ∀ (x : RegIdx) (s : State), ∃ t, exec (.opFx29 x) s = .next t ∧
    t.i.toNat = 0x050 + 5 * (s.reg x).toNat ∧ OnlyIndex s t

/-- 43_index_memory.md R193: Fx33 stores the three decimal digits at `I` on, the font table and the program included
(decision D18, log 26), and no other byte changes. -/
def Obligations.StoreDecimalDigits : Prop :=
  ∀ (x : RegIdx) (s : State), s.mem.wf = true → s.base + 2 ≤ 0x0FFF →
    ∃ t, exec (.opFx33 x) s = .next t ∧
      (t.mem.read s.base).toNat = (s.reg x).toNat / 100 ∧
      (t.mem.read (s.base + 1)).toNat = (s.reg x).toNat / 10 % 10 ∧
      (t.mem.read (s.base + 2)).toNat = (s.reg x).toNat % 10 ∧
      OnlyBytes s t s.base 3 ∧ t.mem.wf = true

/-- 43_index_memory.md R194: Fx55 stores `V[0]` to `V[x]` at `I` on, and no other byte changes; `I` stays. -/
def Obligations.StoreRegisterRange : Prop :=
  ∀ (x : RegIdx) (s : State), s.mem.wf = true → s.base + x.val ≤ 0x0FFF →
    ∃ t, exec (.opFx55 x) s = .next t ∧
      (∀ k : RegIdx, k ≤ x → t.mem.read (s.base + k.val) = s.reg k) ∧
      OnlyBytes s t s.base (x.val + 1) ∧ t.mem.wf = true

/-- 43_index_memory.md R195: Fx65 loads `V[0]` to `V[x]` from `I` on; the registers above, `I` and memory stay. -/
def Obligations.LoadRegisterRange : Prop :=
  ∀ (x : RegIdx) (s : State), s.base + x.val ≤ 0x0FFF →
    ∃ t, exec (.opFx65 x) s = .next t ∧
      (∀ k : RegIdx, t.reg k = if k ≤ x then s.mem.read (s.base + k.val) else s.reg k) ∧ OnlyRegisters s t

/-- 43_index_memory.md R196, 60_exceptions.md R255, R256, decisions D3 and D4 (log 8, log 9): Fx33, Fx55, Fx65 and Dxyn
with a range that leaves memory are a BoundsError with the lowest bad address, and change nothing else. -/
def Obligations.RangeOutsideMemoryIsABoundsError : Prop :=
  ∀ (x y : RegIdx) (n : Fin 16) (s : State),
    (0x0FFF < s.base + 2 → ∃ t, exec (.opFx33 x) s = .next t ∧
      FailedAt s t (s.pc - 2#16) 2#3 (if 0x1000 ≤ s.i.toNat then s.i else 0x1000#16)) ∧
    (0x0FFF < s.base + x.val → ∃ t, exec (.opFx55 x) s = .next t ∧
      FailedAt s t (s.pc - 2#16) 2#3 (if 0x1000 ≤ s.i.toNat then s.i else 0x1000#16)) ∧
    (0x0FFF < s.base + x.val → ∃ t, exec (.opFx65 x) s = .next t ∧
      FailedAt s t (s.pc - 2#16) 2#3 (if 0x1000 ≤ s.i.toNat then s.i else 0x1000#16)) ∧
    (0 < n.val → 0x1000 < s.base + n.val → ∃ t, exec (.opDxyn x y n) s = .next t ∧
      FailedAt s t (s.pc - 2#16) 2#3 (if 0x1000 ≤ s.i.toNat then s.i else 0x1000#16))

/-- The source's property S8 (95_test_vectors.md): the registers stored by Fx55 come back by Fx65 into any register
file, and neither changes `I`. -/
def Obligations.StoreThenLoadRestoresTheRegisters : Prop :=
  ∀ (x : RegIdx) (s : State) (v : Vector Byte 16), s.mem.wf = true → s.base + x.val ≤ 0x0FFF →
    ∃ t, exec (.opFx55 x) s = .next t ∧ t.i = s.i ∧
      ∃ u, exec (.opFx65 x) { t with v := v } = .next u ∧ u.i = s.i ∧
        (∀ k : RegIdx, k ≤ x → u.reg k = s.reg k) ∧ ∀ k : RegIdx, x < k → u.reg k = v[k]

/-- 20_memory.md R75: bytes that Fx55 stores where `PC` points are the word the next fetch reads, high byte first. -/
def Obligations.NextFetchSeesTheStoredBytes : Prop :=
  ∀ (x k j : RegIdx) (s : State), s.mem.wf = true → s.base + x.val ≤ 0x0FFF → j ≤ x → j.val = k.val + 1 →
    s.pc.toNat = s.base + k.val →
    ∃ t, exec (.opFx55 x) s = .next t ∧ t.fetch = .ok (wordOfBytes (s.reg k) (s.reg j))

/-- 20_memory.md R64, R65: one-byte MemRead and MemWrite at every address a 16-bit register can hold, and the two-byte
read of fetch. -/
def Obligations.MemReadAndMemWrite : Prop :=
  (∀ (m : Memory) (a : Nat) (v : Byte), m.wf = true → a ≤ 0xFFFF →
    (0x0FFF < a → memRead m a 1 = .error (.boundsError (BitVec.ofNat 16 a)) ∧
      memWrite m a [v] = .error (.boundsError (BitVec.ofNat 16 a))) ∧
    (a ≤ 0x0FFF → memRead m a 1 = .ok [m.read a] ∧
      ∃ m', memWrite m a [v] = .ok m' ∧ m'.wf = true ∧ ∀ b, m'.read b = if b = a then v else m.read b)) ∧
  (∀ s : State, s.pc.toNat ≤ 0x0FFE →
    s.fetch = .ok (s.mem.read s.pc.toNat ++ s.mem.read (s.pc.toNat + 1)))

/-! ## Display -/

/-- 44_display.md R213: 00E0, and the alias words with the same low digit (decision D1, log 10). -/
def Obligations.ClearDisplay : Prop :=
  (∀ w : Word, opOf w = 0x0#4 → lowNibbleOf w = 0x0#4 → decode w = .ok (.op00E0 (midOf w))) ∧
  ∀ (und : BitVec 8) (s : State), ∃ t, exec (.op00E0 und) s = .next t ∧
    (∀ px py, px < 64 → py < 32 → t.fb.pixel px py = false) ∧ OnlyDisplay s t

/-- 44_display.md R211: Toggle, for coordinates of any size. -/
def Obligations.ToggleXorsOnePixel : Prop :=
  ∀ (fb : Framebuffer) (px py : Nat) (b : Bool),
    ((fb.toggle px py b).2 = true ↔ fb.pixel (px % 64) (py % 32) = true ∧ b = true) ∧
    ∀ qx qy, qx < 64 → qy < 32 →
      (fb.toggle px py b).1.pixel qx qy =
        if qx = px % 64 ∧ qy = py % 32 then Bool.xor (fb.pixel qx qy) b else fb.pixel qx qy

/-- 44_display.md R214, R215: Dxyn turns over exactly the pixels under a set bit of the sprite, every coordinate
wrapped; `VF` is 1 exactly when one of them was set before, and is written last, also with `x` or `y` = 15, when the
old `VF` is the coordinate (decision D17, log 13). A sprite of no rows draws nothing whatever `I` is (decision D17). -/
def Obligations.DrawSpriteXorsTheCoveredPixels : Prop :=
  (∀ w : Word, opOf w = 0xD#4 → decode w = .ok (.opDxyn (xOf w) (yOf w) (nOf w))) ∧
  ∀ (x y : RegIdx) (n : Fin 16) (s : State), n.val = 0 ∨ s.base + n.val ≤ 0x1000 →
    ∃ t, exec (.opDxyn x y n) s = .next t ∧
      (∀ px py, px < 64 → py < 32 →
        t.fb.pixel px py = Bool.xor (s.fb.pixel px py) (spriteBit s.mem s.base n.val (s.reg x) (s.reg y) px py)) ∧
      (t.reg 15 = 0x01#8 ↔ ∃ px py, px < 64 ∧ py < 32 ∧ s.fb.pixel px py = true ∧
        spriteBit s.mem s.base n.val (s.reg x) (s.reg y) px py = true) ∧
      (t.reg 15 = 0x00#8 ∨ t.reg 15 = 0x01#8) ∧
      (∀ k, k ≠ 15 → t.reg k = s.reg k) ∧ OnlyDisplayAndRegisters s t

/-- The source's property S6 (95_test_vectors.md): drawing the same sprite again at the same coordinates, from any state
that shows what the first draw left, restores every pixel, and reports a collision when the first draw reported none
and the sprite has a set bit. That a sprite of no rows may have `I` outside memory, and that a coordinate may be the old
`VF`, is decision D17 (log 13). -/
def Obligations.DrawingTwiceErasesTheSprite : Prop :=
  ∀ (x y x' y' : RegIdx) (n : Fin 16) (s : State), n.val = 0 ∨ s.base + n.val ≤ 0x1000 →
    ∃ t, exec (.opDxyn x y n) s = .next t ∧
      ∀ r : State, r.fb = t.fb → r.mem = s.mem → r.i = s.i → r.reg x' = s.reg x → r.reg y' = s.reg y →
        ∃ u, exec (.opDxyn x' y' n) r = .next u ∧
          (∀ px py, px < 64 → py < 32 → u.fb.pixel px py = s.fb.pixel px py) ∧
          (t.reg 15 = 0x00#8 → (∃ k, k < n.val ∧ s.mem.read (s.base + k) ≠ 0x00#8) → u.reg 15 = 0x01#8)

/-! ## Keys and timers -/

/-- 45_keys_timers.md R231, R232: Ex9E and ExA1 skip on the level of the key `V[x]` in this cycle; a key number above 15
is a BoundsError with that number (decision D12, log 16), which changes nothing else (decisions D3 and D4, log 8, log 9).
That the alias words do the same is decision D1 (log 10). -/
def Obligations.KeySkipsTestTheKeyLevel : Prop :=
  ∀ (x : RegIdx) (und : BitVec 4) (s : State),
    (∀ k : Key, (s.reg x).toNat = k.val →
      (∃ t, exec (.opEx9E x und) s = .next t ∧
        t.pc = (if s.input.keys[k] = true then s.pc + 2#16 else s.pc) ∧ OnlyPc s t) ∧
      (∃ t, exec (.opExA1 x und) s = .next t ∧
        t.pc = (if s.input.keys[k] = true then s.pc else s.pc + 2#16) ∧ OnlyPc s t)) ∧
    (15 < (s.reg x).toNat →
      (∃ t, exec (.opEx9E x und) s = .next t ∧
        FailedAt s t (s.pc - 2#16) 2#3 (BitVec.ofNat 16 (s.reg x).toNat)) ∧
      (∃ t, exec (.opExA1 x und) s = .next t ∧
        FailedAt s t (s.pc - 2#16) 2#3 (BitVec.ofNat 16 (s.reg x).toNat)))

/-- 45_keys_timers.md R233: Fx0A takes the key reported in this cycle; with no key down it moves `PC` back to `pc0` and
changes nothing else, and the whole cycle ticks the timers. That a key held down counts is decision D24 (log 18). -/
def Obligations.WaitForKeyStallsByRewindingPc : Prop :=
  ∀ (x : RegIdx) (s : State),
    (∀ k : Key, s.input.anyKey = some k → ∃ t, exec (.opFx0A x) s = .next t ∧
      (t.reg x).toNat = k.val ∧ (∀ j, j ≠ x → t.reg j = s.reg j) ∧ OnlyRegisters s t) ∧
    (s.input.anyKey = none →
      (∃ t, exec (.opFx0A x) s = .next t ∧ t.pc = s.pc - 2#16 ∧ OnlyPc s t) ∧
      (s.run = .running → s.pc.toNat ≤ 0x0FFE →
        decode (wordOfBytes (s.mem.read s.pc.toNat) (s.mem.read (s.pc.toNat + 1))) = .ok (.opFx0A x) →
        ∃ t, step s = .next t ∧ t.pc = s.pc ∧ t.run = .running ∧
          t.dt.toNat = s.dt.toNat - 1 ∧ t.st.toNat = s.st.toNat - 1 ∧ MemoryAsBefore s t ∧
          t = { s with
            dt := t.dt, st := t.st, ir := t.ir, warn := none, inputs := t.inputs, draws := t.draws }))

/-- 45_keys_timers.md R234, R235, R236: Fx07, Fx15, Fx18, in the execute phase and after the cycle, whose tick follows.
When the host sees `TONE` is an inference the spec marks as its own (R236). -/
def Obligations.TimerInstructionsMoveTheCount : Prop :=
  (∀ w : Word, opOf w = 0xF#4 → nnOf w = 0x07#8 → decode w = .ok (.opFx07 (xOf w))) ∧
  (∀ w : Word, opOf w = 0xF#4 → nnOf w = 0x15#8 → decode w = .ok (.opFx15 (xOf w))) ∧
  (∀ w : Word, opOf w = 0xF#4 → nnOf w = 0x18#8 → decode w = .ok (.opFx18 (xOf w))) ∧
  ∀ (x : RegIdx) (s : State),
    (∃ t, exec (.opFx07 x) s = .next t ∧
      t.reg x = s.dt ∧ (∀ k, k ≠ x → t.reg k = s.reg k) ∧ OnlyRegisters s t) ∧
    (∃ t, exec (.opFx15 x) s = .next t ∧ t.dt = s.reg x ∧ OnlyDelayTimer s t) ∧
    (∃ t, exec (.opFx18 x) s = .next t ∧ t.st = s.reg x ∧ OnlySoundTimer s t) ∧
    (s.run = .running → s.pc.toNat ≤ 0x0FFE →
      ∃ t, step s = .next t ∧
        (decode (wordOfBytes (s.mem.read s.pc.toNat) (s.mem.read (s.pc.toNat + 1))) = .ok (.opFx07 x) →
          t.reg x = s.dt ∧ t.dt.toNat = s.dt.toNat - 1) ∧
        (decode (wordOfBytes (s.mem.read s.pc.toNat) (s.mem.read (s.pc.toNat + 1))) = .ok (.opFx15 x) →
          t.dt.toNat = (s.reg x).toNat - 1) ∧
        (decode (wordOfBytes (s.mem.read s.pc.toNat) (s.mem.read (s.pc.toNat + 1))) = .ok (.opFx18 x) →
          t.st.toNat = (s.reg x).toNat - 1 ∧ (t.tone = true ↔ 2 ≤ (s.reg x).toNat)))

/-- 10_state.md R33, decision D11 (log 4): `ANYKEY` is none exactly when no key is down, and reports a key that is down;
and every key that is down can be the one reported, with any `RND` beside it, so the environment's choice is free. -/
def Obligations.AnyKeyAgreesWithTheKeys : Prop :=
  (∀ inp : CycleInput, inp.anyKey = none ↔ ∀ k : Key, inp.keys[k] = false) ∧
  (∀ (inp : CycleInput) (k : Key), inp.anyKey = some k → inp.keys[k] = true) ∧
  (∀ (keys : Vector Bool 16) (rnd : Byte) (k : Key) (s : State), keys[k] = true →
    ∃ inp : CycleInput, inp.keys = keys ∧ inp.rnd = rnd ∧ inp.anyKey = some k ∧ (s.present inp).input = inp)

/-! ## The host -/

/-- 70_reset_and_hazards.md R293: a ROM of at most 3584 bytes goes to 0x200 on, and nothing else changes; a longer one
is refused whole with ResourceError (decision D8, log 21). -/
def Obligations.RomLoadPlacesTheBytes : Prop :=
  ∀ (s : State) (rom : List Byte),
    (rom.length ≤ 3584 → s.mem.wf = true →
      (s.loadRom rom).2 = .loaded ∧
      (∀ (k : Nat) (h : k < rom.length), (s.loadRom rom).1.mem.read (0x200 + k) = rom[k]) ∧
      OnlyBytes s (s.loadRom rom).1 0x200 rom.length ∧ (s.loadRom rom).1.mem.wf = true) ∧
    (3584 < rom.length → s.loadRom rom = (s, .resourceError rom.length))

/-- 10_state.md R34, 70_reset_and_hazards.md R290: the host sees 2048 bytes, pixel (`px`, `py`) at `py * 64 + px`
(decision D20, log 24), and `TONE` as `ST > 0`; a reset from any state gives the reset state (decision D7, log 19), but
for what the environment will present. -/
def Obligations.HostViewsAndReset : Prop :=
  ∀ s : State,
    s.framebufferView.length = 2048 ∧
    (∀ px py, px < 64 → py < 32 →
      s.framebufferView[py * 64 + px]? = some (if s.fb.pixel px py = true then 0xFF#8 else 0x00#8)) ∧
    (s.tone = true ↔ 0 < s.st.toNat) ∧
    s.hostReset = { State.reset with inputs := s.inputs, draws := s.draws } ∧ s.hostReset.run = .running
end

