-- ==== Sys2Proof/Laws/Memory.lean ====
section
/-!
SUPPORT. Memory: a read after a write, the bytes of a multi-byte access, the canonical form kept by every operation,
and what the bounds check answers.
-/

namespace Sys2Proof.Machine

/-! ## One byte -/

@[simp] theorem Memory.read_nil (a : Nat) : Memory.read [] a = Memory.background a := rfl

theorem Memory.read_cons (k : Nat) (b : Byte) (rest : Memory) (a : Nat) :
    Memory.read ((k, b) :: rest) a = if k = a then b else rest.read a := rfl

theorem Memory.wfFrom_cons {lo k : Nat} {b : Byte} {rest : Memory} :
    Memory.wfFrom lo ((k, b) :: rest) = true ↔
      lo ≤ k ∧ k < Config.memSize ∧ b ≠ Memory.background k ∧ Memory.wfFrom (k + 1) rest = true := by
  simp [Memory.wfFrom, and_assoc]

theorem Memory.wfFrom_mono {lo lo' : Nat} {m : Memory} (h : Memory.wfFrom lo m = true) (hle : lo' ≤ lo) :
    Memory.wfFrom lo' m = true := by
  cases m with
  | nil => rfl
  | cons c rest =>
    obtain ⟨k, b⟩ := c
    rw [Memory.wfFrom_cons] at h ⊢
    exact ⟨Nat.le_trans hle h.1, h.2⟩

/-- Below a canonical memory's first address every byte is the background. -/
theorem Memory.read_below {lo : Nat} {m : Memory} (h : Memory.wfFrom lo m = true) {a : Nat} (ha : a < lo) :
    m.read a = Memory.background a := by
  induction m generalizing lo with
  | nil => rfl
  | cons c rest ih =>
    obtain ⟨k, b⟩ := c
    rw [Memory.wfFrom_cons] at h
    rw [Memory.read_cons, if_neg (by omega)]
    exact ih h.2.2.2 (by omega)

theorem Memory.read_place (a : Nat) (b : Byte) (rest : Memory) (c : Nat) :
    (Memory.place a b rest).read c =
      if b = Memory.background a then rest.read c else if a = c then b else rest.read c := by
  unfold Memory.place
  split <;> simp_all [Memory.read_cons]

/-- A write leaves every other address alone. -/
theorem Memory.read_write_ne (m : Memory) {a c : Nat} (b : Byte) (h : c ≠ a) : (m.write a b).read c = m.read c := by
  have h' : ¬ a = c := fun e => h e.symm
  induction m with
  | nil => simp [Memory.write, Memory.read_place, h']
  | cons cell rest ih =>
    obtain ⟨k, e⟩ := cell
    simp only [Memory.write]
    split
    · simp [Memory.read_place, h']
    · split
      · next hk => subst hk; simp [Memory.read_place, Memory.read_cons, h']
      · simp [Memory.read_cons, ih]

theorem Memory.read_write_self {lo : Nat} {m : Memory} (hm : Memory.wfFrom lo m = true) (a : Nat) (b : Byte) :
    (m.write a b).read a = b := by
  induction m generalizing lo with
  | nil =>
    rw [Memory.write, Memory.read_place]
    split <;> simp_all
  | cons cell rest ih =>
    obtain ⟨k, e⟩ := cell
    have hc := Memory.wfFrom_cons.1 hm
    simp only [Memory.write]
    split
    · next hlt =>
      rw [Memory.read_place]
      split
      · next hb => rw [Memory.read_below (Memory.wfFrom_cons.2 ⟨Nat.le_refl k, hc.2⟩) hlt]; exact hb.symm
      · simp
    · split
      · next hk =>
        subst hk
        rw [Memory.read_place]
        split
        · next hb => rw [Memory.read_below hc.2.2.2 (Nat.lt_succ_self a)]; exact hb.symm
        · simp
      · next hne =>
        rw [Memory.read_cons, if_neg (fun e => hne e.symm)]
        exact ih hc.2.2.2

/-- Reading one address after a write, in a canonical memory (20_memory.md R64, R65). -/
theorem Memory.read_write {m : Memory} (hm : m.wf = true) (a c : Nat) (b : Byte) :
    (m.write a b).read c = if c = a then b else m.read c := by
  split
  · next h => rw [h]; exact Memory.read_write_self hm a b
  · next h => exact Memory.read_write_ne m b h

theorem Memory.wfFrom_place {lo a : Nat} {b : Byte} {rest : Memory} (hlo : lo ≤ a) (ha : a < Config.memSize)
    (hr : Memory.wfFrom (a + 1) rest = true) : Memory.wfFrom lo (Memory.place a b rest) = true := by
  unfold Memory.place
  split
  · exact Memory.wfFrom_mono hr (by omega)
  · next hb => exact Memory.wfFrom_cons.2 ⟨hlo, ha, hb, hr⟩

theorem Memory.wfFrom_write {lo : Nat} {m : Memory} (hm : Memory.wfFrom lo m = true) {a : Nat} (b : Byte)
    (hlo : lo ≤ a) (ha : a < Config.memSize) : Memory.wfFrom lo (m.write a b) = true := by
  induction m generalizing lo with
  | nil => exact Memory.wfFrom_place hlo ha rfl
  | cons cell rest ih =>
    obtain ⟨k, e⟩ := cell
    have hc := Memory.wfFrom_cons.1 hm
    simp only [Memory.write]
    split
    · next hlt => exact Memory.wfFrom_place hlo ha (Memory.wfFrom_cons.2 ⟨by omega, hc.2⟩)
    · split
      · next hk => subst hk; exact Memory.wfFrom_place hlo ha hc.2.2.2
      · next hge hne =>
        exact Memory.wfFrom_cons.2 ⟨hc.1, hc.2.1, hc.2.2.1, ih hc.2.2.2 (by omega)⟩

/-- A write inside memory keeps the canonical form. -/
theorem Memory.wf_write {m : Memory} (hm : m.wf = true) {a : Nat} (b : Byte) (ha : a < 4096) :
    (m.write a b).wf = true :=
  Memory.wfFrom_write hm b (Nat.zero_le a) ha

/-! ## Several bytes -/

@[simp] theorem Memory.length_readBytes (m : Memory) (a len : Nat) : (m.readBytes a len).length = len := by
  induction len generalizing a with
  | zero => rfl
  | succ n ih => simp [Memory.readBytes, ih]

theorem Memory.readBytes_getElem? (m : Memory) (a len k : Nat) (h : k < len) :
    (m.readBytes a len)[k]? = some (m.read (a + k)) := by
  induction len generalizing a k with
  | zero => omega
  | succ n ih =>
    cases k with
    | zero => simp [Memory.readBytes]
    | succ j =>
      simp only [Memory.readBytes, List.getElem?_cons_succ]
      rw [ih (a + 1) j (by omega)]
      congr 2
      omega

/-- Bytes outside the stored range are left alone. -/
theorem Memory.read_writeBytes_outside (m : Memory) (a : Nat) (bytes : List Byte) (c : Nat)
    (h : c < a ∨ a + bytes.length ≤ c) : (m.writeBytes a bytes).read c = m.read c := by
  induction bytes generalizing m a with
  | nil => rfl
  | cons b rest ih =>
    simp only [List.length_cons] at h
    rw [Memory.writeBytes, ih (m.write a b) (a + 1) (by omega), Memory.read_write_ne m b (by omega)]

theorem Memory.wf_writeBytes {m : Memory} (hm : m.wf = true) (a : Nat) (bytes : List Byte)
    (h : a + bytes.length ≤ 4096) : (m.writeBytes a bytes).wf = true := by
  induction bytes generalizing m a with
  | nil => exact hm
  | cons b rest ih =>
    simp only [List.length_cons] at h
    exact ih (Memory.wf_write hm b (by omega)) (a + 1) (by omega)

/-- The stored bytes, in a canonical memory and a range inside memory. -/
theorem Memory.read_writeBytes_inside {m : Memory} (hm : m.wf = true) (a : Nat) (bytes : List Byte)
    (hfit : a + bytes.length ≤ 4096) (k : Nat) (hk : k < bytes.length) :
    (m.writeBytes a bytes).read (a + k) = bytes[k] := by
  induction bytes generalizing m a k with
  | nil => simp at hk
  | cons b rest ih =>
    simp only [List.length_cons] at hfit hk
    rw [Memory.writeBytes]
    cases k with
    | zero =>
      rw [Memory.read_writeBytes_outside _ _ _ _ (by omega)]
      simpa using Memory.read_write_self hm a b
    | succ j =>
      have := ih (Memory.wf_write (a := a) hm b (by omega)) (a + 1) (by omega) j (by omega)
      simpa [Nat.add_assoc, Nat.add_comm 1 j] using this

/-! ## The bounds check (43_index_memory.md R196) -/

theorem checkRange_ok {a len : Nat} (h : len = 0 ∨ a + len ≤ 0x1000) : checkRange a len = .ok () := by
  have : ¬ (0 < len ∧ 0x0FFF < a + len - 1) := by omega
  simp [checkRange, firstOutside, this]

theorem checkRange_error {a len : Nat} (h : 0 < len ∧ 0x1000 < a + len) :
    checkRange a len = .error (.boundsError (BitVec.ofNat 16 (max a 0x1000))) := by
  have : 0 < len ∧ 0x0FFF < a + len - 1 := by omega
  simp [checkRange, firstOutside, this]

/-- Everything the check can answer. -/
theorem checkRange_cases (a len : Nat) :
    ((len = 0 ∨ a + len ≤ 0x1000) ∧ checkRange a len = .ok ()) ∨
    ((0 < len ∧ 0x1000 < a + len) ∧
      checkRange a len = .error (.boundsError (BitVec.ofNat 16 (max a 0x1000)))) := by
  by_cases h : len = 0 ∨ a + len ≤ 0x1000
  · exact .inl ⟨h, checkRange_ok h⟩
  · exact .inr ⟨by omega, checkRange_error (by omega)⟩

theorem memRead_ok {m : Memory} {a len : Nat} (h : len = 0 ∨ a + len ≤ 0x1000) :
    memRead m a len = .ok (m.readBytes a len) := by
  simp [memRead, checkRange_ok h, Except.map]

theorem memRead_error {m : Memory} {a len : Nat} (h : 0 < len ∧ 0x1000 < a + len) :
    memRead m a len = .error (.boundsError (BitVec.ofNat 16 (max a 0x1000))) := by
  simp [memRead, checkRange_error h, Except.map]

theorem memWrite_ok {m : Memory} {a : Nat} {bytes : List Byte} (h : bytes.length = 0 ∨ a + bytes.length ≤ 0x1000) :
    memWrite m a bytes = .ok (m.writeBytes a bytes) := by
  simp [memWrite, checkRange_ok h, Except.map]

theorem memWrite_error {m : Memory} {a : Nat} {bytes : List Byte}
    (h : 0 < bytes.length ∧ 0x1000 < a + bytes.length) :
    memWrite m a bytes = .error (.boundsError (BitVec.ofNat 16 (max a 0x1000))) := by
  simp [memWrite, checkRange_error h, Except.map]

end Sys2Proof.Machine
end

