-- ==== Sys2Proof/Laws/State.lean ====
section
/-!
SUPPORT. What each update of the state leaves in each field: one lemma per field per update, so that no later proof
unfolds a record update; and the register file read after a write.
-/

namespace Sys2Proof.Machine

/-! ## The register file -/

theorem State.reg_setReg (s : State) (j k : RegIdx) (b : Byte) :
    (s.setReg j b).reg k = if k = j then b else s.reg k := by
  simp only [State.reg, State.setReg, Fin.getElem_fin, Vector.getElem_set, Fin.ext_iff]
  split <;> split <;> simp_all

@[simp] theorem State.reg_setReg_same (s : State) (k : RegIdx) (b : Byte) : (s.setReg k b).reg k = b := by
  simp [State.reg_setReg]

theorem State.reg_setReg_ne (s : State) {j k : RegIdx} (b : Byte) (h : k ≠ j) :
    (s.setReg j b).reg k = s.reg k := by
  simp [State.reg_setReg, h]

theorem State.reg_ext {s t : State} (h : ∀ k, s.reg k = t.reg k) : s.v = t.v := by
  apply Vector.ext
  intro k hk
  exact h ⟨k, hk⟩

/-- A register is a function of the register file alone. -/
theorem State.reg_congr {s t : State} (h : t.v = s.v) (k : RegIdx) : t.reg k = s.reg k := by
  simp [State.reg, h]

/-! ## setReg -/

@[simp] theorem State.v_setReg (s : State) (k : RegIdx) (b : Byte) : (s.setReg k b).v = s.v.set k b := rfl
@[simp] theorem State.i_setReg (s : State) (k : RegIdx) (b : Byte) : (s.setReg k b).i = s.i := rfl
@[simp] theorem State.pc_setReg (s : State) (k : RegIdx) (b : Byte) : (s.setReg k b).pc = s.pc := rfl
@[simp] theorem State.sp_setReg (s : State) (k : RegIdx) (b : Byte) : (s.setReg k b).sp = s.sp := rfl
@[simp] theorem State.stack_setReg (s : State) (k : RegIdx) (b : Byte) : (s.setReg k b).stack = s.stack := rfl
@[simp] theorem State.dt_setReg (s : State) (k : RegIdx) (b : Byte) : (s.setReg k b).dt = s.dt := rfl
@[simp] theorem State.st_setReg (s : State) (k : RegIdx) (b : Byte) : (s.setReg k b).st = s.st := rfl
@[simp] theorem State.ir_setReg (s : State) (k : RegIdx) (b : Byte) : (s.setReg k b).ir = s.ir := rfl
@[simp] theorem State.mem_setReg (s : State) (k : RegIdx) (b : Byte) : (s.setReg k b).mem = s.mem := rfl
@[simp] theorem State.fb_setReg (s : State) (k : RegIdx) (b : Byte) : (s.setReg k b).fb = s.fb := rfl
@[simp] theorem State.run_setReg (s : State) (k : RegIdx) (b : Byte) : (s.setReg k b).run = s.run := rfl
@[simp] theorem State.faultCause_setReg (s : State) (k : RegIdx) (b : Byte) : (s.setReg k b).faultCause = s.faultCause := rfl
@[simp] theorem State.faultPc_setReg (s : State) (k : RegIdx) (b : Byte) : (s.setReg k b).faultPc = s.faultPc := rfl
@[simp] theorem State.faultInfo_setReg (s : State) (k : RegIdx) (b : Byte) : (s.setReg k b).faultInfo = s.faultInfo := rfl
@[simp] theorem State.inputs_setReg (s : State) (k : RegIdx) (b : Byte) : (s.setReg k b).inputs = s.inputs := rfl
@[simp] theorem State.draws_setReg (s : State) (k : RegIdx) (b : Byte) : (s.setReg k b).draws = s.draws := rfl
@[simp] theorem State.warn_setReg (s : State) (k : RegIdx) (b : Byte) : (s.setReg k b).warn = s.warn := rfl

/-! ## setFlag -/

@[simp] theorem State.v_setFlag (s : State) (f : Bool) : (s.setFlag f).v = s.v.set vf (flagByte f) := rfl
@[simp] theorem State.i_setFlag (s : State) (f : Bool) : (s.setFlag f).i = s.i := rfl
@[simp] theorem State.pc_setFlag (s : State) (f : Bool) : (s.setFlag f).pc = s.pc := rfl
@[simp] theorem State.sp_setFlag (s : State) (f : Bool) : (s.setFlag f).sp = s.sp := rfl
@[simp] theorem State.stack_setFlag (s : State) (f : Bool) : (s.setFlag f).stack = s.stack := rfl
@[simp] theorem State.dt_setFlag (s : State) (f : Bool) : (s.setFlag f).dt = s.dt := rfl
@[simp] theorem State.st_setFlag (s : State) (f : Bool) : (s.setFlag f).st = s.st := rfl
@[simp] theorem State.ir_setFlag (s : State) (f : Bool) : (s.setFlag f).ir = s.ir := rfl
@[simp] theorem State.mem_setFlag (s : State) (f : Bool) : (s.setFlag f).mem = s.mem := rfl
@[simp] theorem State.fb_setFlag (s : State) (f : Bool) : (s.setFlag f).fb = s.fb := rfl
@[simp] theorem State.run_setFlag (s : State) (f : Bool) : (s.setFlag f).run = s.run := rfl
@[simp] theorem State.faultCause_setFlag (s : State) (f : Bool) : (s.setFlag f).faultCause = s.faultCause := rfl
@[simp] theorem State.faultPc_setFlag (s : State) (f : Bool) : (s.setFlag f).faultPc = s.faultPc := rfl
@[simp] theorem State.faultInfo_setFlag (s : State) (f : Bool) : (s.setFlag f).faultInfo = s.faultInfo := rfl
@[simp] theorem State.inputs_setFlag (s : State) (f : Bool) : (s.setFlag f).inputs = s.inputs := rfl
@[simp] theorem State.draws_setFlag (s : State) (f : Bool) : (s.setFlag f).draws = s.draws := rfl
@[simp] theorem State.warn_setFlag (s : State) (f : Bool) : (s.setFlag f).warn = s.warn := rfl

/-! ## skipIf -/

@[simp] theorem State.v_skipIf (s : State) (c : Bool) : (s.skipIf c).v = s.v := rfl
@[simp] theorem State.i_skipIf (s : State) (c : Bool) : (s.skipIf c).i = s.i := rfl
@[simp] theorem State.pc_skipIf (s : State) (c : Bool) : (s.skipIf c).pc = if c then s.pc + 2#16 else s.pc := rfl
@[simp] theorem State.sp_skipIf (s : State) (c : Bool) : (s.skipIf c).sp = s.sp := rfl
@[simp] theorem State.stack_skipIf (s : State) (c : Bool) : (s.skipIf c).stack = s.stack := rfl
@[simp] theorem State.dt_skipIf (s : State) (c : Bool) : (s.skipIf c).dt = s.dt := rfl
@[simp] theorem State.st_skipIf (s : State) (c : Bool) : (s.skipIf c).st = s.st := rfl
@[simp] theorem State.ir_skipIf (s : State) (c : Bool) : (s.skipIf c).ir = s.ir := rfl
@[simp] theorem State.mem_skipIf (s : State) (c : Bool) : (s.skipIf c).mem = s.mem := rfl
@[simp] theorem State.fb_skipIf (s : State) (c : Bool) : (s.skipIf c).fb = s.fb := rfl
@[simp] theorem State.run_skipIf (s : State) (c : Bool) : (s.skipIf c).run = s.run := rfl
@[simp] theorem State.faultCause_skipIf (s : State) (c : Bool) : (s.skipIf c).faultCause = s.faultCause := rfl
@[simp] theorem State.faultPc_skipIf (s : State) (c : Bool) : (s.skipIf c).faultPc = s.faultPc := rfl
@[simp] theorem State.faultInfo_skipIf (s : State) (c : Bool) : (s.skipIf c).faultInfo = s.faultInfo := rfl
@[simp] theorem State.inputs_skipIf (s : State) (c : Bool) : (s.skipIf c).inputs = s.inputs := rfl
@[simp] theorem State.draws_skipIf (s : State) (c : Bool) : (s.skipIf c).draws = s.draws := rfl
@[simp] theorem State.warn_skipIf (s : State) (c : Bool) : (s.skipIf c).warn = s.warn := rfl

/-! ## raise -/

@[simp] theorem State.v_raise (s : State) (pc0 : Word) (f : Fault) : (s.raise pc0 f).v = s.v := rfl
@[simp] theorem State.i_raise (s : State) (pc0 : Word) (f : Fault) : (s.raise pc0 f).i = s.i := rfl
@[simp] theorem State.pc_raise (s : State) (pc0 : Word) (f : Fault) : (s.raise pc0 f).pc = pc0 := rfl
@[simp] theorem State.sp_raise (s : State) (pc0 : Word) (f : Fault) : (s.raise pc0 f).sp = s.sp := rfl
@[simp] theorem State.stack_raise (s : State) (pc0 : Word) (f : Fault) : (s.raise pc0 f).stack = s.stack := rfl
@[simp] theorem State.dt_raise (s : State) (pc0 : Word) (f : Fault) : (s.raise pc0 f).dt = s.dt := rfl
@[simp] theorem State.st_raise (s : State) (pc0 : Word) (f : Fault) : (s.raise pc0 f).st = s.st := rfl
@[simp] theorem State.ir_raise (s : State) (pc0 : Word) (f : Fault) : (s.raise pc0 f).ir = s.ir := rfl
@[simp] theorem State.mem_raise (s : State) (pc0 : Word) (f : Fault) : (s.raise pc0 f).mem = s.mem := rfl
@[simp] theorem State.fb_raise (s : State) (pc0 : Word) (f : Fault) : (s.raise pc0 f).fb = s.fb := rfl
@[simp] theorem State.run_raise (s : State) (pc0 : Word) (f : Fault) : (s.raise pc0 f).run = .faulted := rfl
@[simp] theorem State.faultCause_raise (s : State) (pc0 : Word) (f : Fault) : (s.raise pc0 f).faultCause = f.code := rfl
@[simp] theorem State.faultPc_raise (s : State) (pc0 : Word) (f : Fault) : (s.raise pc0 f).faultPc = pc0 := rfl
@[simp] theorem State.faultInfo_raise (s : State) (pc0 : Word) (f : Fault) : (s.raise pc0 f).faultInfo = f.info := rfl
@[simp] theorem State.inputs_raise (s : State) (pc0 : Word) (f : Fault) : (s.raise pc0 f).inputs = s.inputs := rfl
@[simp] theorem State.draws_raise (s : State) (pc0 : Word) (f : Fault) : (s.raise pc0 f).draws = s.draws := rfl
@[simp] theorem State.warn_raise (s : State) (pc0 : Word) (f : Fault) : (s.raise pc0 f).warn = s.warn := rfl

/-! ## advance -/

@[simp] theorem State.v_advance (s : State) : (s.advance).v = s.v := rfl
@[simp] theorem State.i_advance (s : State) : (s.advance).i = s.i := rfl
@[simp] theorem State.pc_advance (s : State) : (s.advance).pc = s.pc + 2#16 := rfl
@[simp] theorem State.sp_advance (s : State) : (s.advance).sp = s.sp := rfl
@[simp] theorem State.stack_advance (s : State) : (s.advance).stack = s.stack := rfl
@[simp] theorem State.dt_advance (s : State) : (s.advance).dt = s.dt := rfl
@[simp] theorem State.st_advance (s : State) : (s.advance).st = s.st := rfl
@[simp] theorem State.ir_advance (s : State) : (s.advance).ir = s.ir := rfl
@[simp] theorem State.mem_advance (s : State) : (s.advance).mem = s.mem := rfl
@[simp] theorem State.fb_advance (s : State) : (s.advance).fb = s.fb := rfl
@[simp] theorem State.run_advance (s : State) : (s.advance).run = s.run := rfl
@[simp] theorem State.faultCause_advance (s : State) : (s.advance).faultCause = s.faultCause := rfl
@[simp] theorem State.faultPc_advance (s : State) : (s.advance).faultPc = s.faultPc := rfl
@[simp] theorem State.faultInfo_advance (s : State) : (s.advance).faultInfo = s.faultInfo := rfl
@[simp] theorem State.inputs_advance (s : State) : (s.advance).inputs = s.inputs := rfl
@[simp] theorem State.draws_advance (s : State) : (s.advance).draws = s.draws := rfl
@[simp] theorem State.warn_advance (s : State) : (s.advance).warn = s.warn := rfl

/-! ## tick -/

@[simp] theorem State.v_tick (s : State) : (s.tick).v = s.v := rfl
@[simp] theorem State.i_tick (s : State) : (s.tick).i = s.i := rfl
@[simp] theorem State.pc_tick (s : State) : (s.tick).pc = s.pc := rfl
@[simp] theorem State.sp_tick (s : State) : (s.tick).sp = s.sp := rfl
@[simp] theorem State.stack_tick (s : State) : (s.tick).stack = s.stack := rfl
@[simp] theorem State.dt_tick (s : State) : (s.tick).dt = tickTimer s.dt := rfl
@[simp] theorem State.st_tick (s : State) : (s.tick).st = tickTimer s.st := rfl
@[simp] theorem State.ir_tick (s : State) : (s.tick).ir = s.ir := rfl
@[simp] theorem State.mem_tick (s : State) : (s.tick).mem = s.mem := rfl
@[simp] theorem State.fb_tick (s : State) : (s.tick).fb = s.fb := rfl
@[simp] theorem State.run_tick (s : State) : (s.tick).run = s.run := rfl
@[simp] theorem State.faultCause_tick (s : State) : (s.tick).faultCause = s.faultCause := rfl
@[simp] theorem State.faultPc_tick (s : State) : (s.tick).faultPc = s.faultPc := rfl
@[simp] theorem State.faultInfo_tick (s : State) : (s.tick).faultInfo = s.faultInfo := rfl
@[simp] theorem State.inputs_tick (s : State) : (s.tick).inputs = s.inputs := rfl
@[simp] theorem State.draws_tick (s : State) : (s.tick).draws = s.draws := rfl
@[simp] theorem State.warn_tick (s : State) : (s.tick).warn = s.warn := rfl

/-! ## consumeInput: only the model's own two fields move -/

@[simp] theorem State.v_consumeInput (s : State) : (s.consumeInput).v = s.v := by unfold State.consumeInput; split <;> rfl
@[simp] theorem State.i_consumeInput (s : State) : (s.consumeInput).i = s.i := by unfold State.consumeInput; split <;> rfl
@[simp] theorem State.pc_consumeInput (s : State) : (s.consumeInput).pc = s.pc := by unfold State.consumeInput; split <;> rfl
@[simp] theorem State.sp_consumeInput (s : State) : (s.consumeInput).sp = s.sp := by unfold State.consumeInput; split <;> rfl
@[simp] theorem State.stack_consumeInput (s : State) : (s.consumeInput).stack = s.stack := by unfold State.consumeInput; split <;> rfl
@[simp] theorem State.dt_consumeInput (s : State) : (s.consumeInput).dt = s.dt := by unfold State.consumeInput; split <;> rfl
@[simp] theorem State.st_consumeInput (s : State) : (s.consumeInput).st = s.st := by unfold State.consumeInput; split <;> rfl
@[simp] theorem State.ir_consumeInput (s : State) : (s.consumeInput).ir = s.ir := by unfold State.consumeInput; split <;> rfl
@[simp] theorem State.mem_consumeInput (s : State) : (s.consumeInput).mem = s.mem := by unfold State.consumeInput; split <;> rfl
@[simp] theorem State.fb_consumeInput (s : State) : (s.consumeInput).fb = s.fb := by unfold State.consumeInput; split <;> rfl
@[simp] theorem State.run_consumeInput (s : State) : (s.consumeInput).run = s.run := by unfold State.consumeInput; split <;> rfl
@[simp] theorem State.faultCause_consumeInput (s : State) : (s.consumeInput).faultCause = s.faultCause := by unfold State.consumeInput; split <;> rfl
@[simp] theorem State.faultPc_consumeInput (s : State) : (s.consumeInput).faultPc = s.faultPc := by unfold State.consumeInput; split <;> rfl
@[simp] theorem State.faultInfo_consumeInput (s : State) : (s.consumeInput).faultInfo = s.faultInfo := by unfold State.consumeInput; split <;> rfl
@[simp] theorem State.warn_consumeInput (s : State) : (s.consumeInput).warn = s.warn := by unfold State.consumeInput; split <;> rfl

/-! ## finish -/

@[simp] theorem State.v_finish (s : State) (w : Word) (e : Option Word) : (s.finish w e).v = s.v := by simp [State.finish]
@[simp] theorem State.i_finish (s : State) (w : Word) (e : Option Word) : (s.finish w e).i = s.i := by simp [State.finish]
@[simp] theorem State.pc_finish (s : State) (w : Word) (e : Option Word) : (s.finish w e).pc = s.pc := by simp [State.finish]
@[simp] theorem State.sp_finish (s : State) (w : Word) (e : Option Word) : (s.finish w e).sp = s.sp := by simp [State.finish]
@[simp] theorem State.stack_finish (s : State) (w : Word) (e : Option Word) : (s.finish w e).stack = s.stack := by simp [State.finish]
@[simp] theorem State.dt_finish (s : State) (w : Word) (e : Option Word) : (s.finish w e).dt = tickTimer s.dt := by simp [State.finish]
@[simp] theorem State.st_finish (s : State) (w : Word) (e : Option Word) : (s.finish w e).st = tickTimer s.st := by simp [State.finish]
@[simp] theorem State.ir_finish (s : State) (w : Word) (e : Option Word) : (s.finish w e).ir = w := by simp [State.finish]
@[simp] theorem State.mem_finish (s : State) (w : Word) (e : Option Word) : (s.finish w e).mem = s.mem := by simp [State.finish]
@[simp] theorem State.fb_finish (s : State) (w : Word) (e : Option Word) : (s.finish w e).fb = s.fb := by simp [State.finish]
@[simp] theorem State.run_finish (s : State) (w : Word) (e : Option Word) : (s.finish w e).run = s.run := by simp [State.finish]
@[simp] theorem State.faultCause_finish (s : State) (w : Word) (e : Option Word) : (s.finish w e).faultCause = s.faultCause := by simp [State.finish]
@[simp] theorem State.faultPc_finish (s : State) (w : Word) (e : Option Word) : (s.finish w e).faultPc = s.faultPc := by simp [State.finish]
@[simp] theorem State.faultInfo_finish (s : State) (w : Word) (e : Option Word) : (s.finish w e).faultInfo = s.faultInfo := by simp [State.finish]
@[simp] theorem State.warn_finish (s : State) (w : Word) (e : Option Word) : (s.finish w e).warn = e := by simp [State.finish]

/-! ## abandon -/

@[simp] theorem State.v_abandon (s : State) : (s.abandon).v = s.v := by simp [State.abandon]
@[simp] theorem State.i_abandon (s : State) : (s.abandon).i = s.i := by simp [State.abandon]
@[simp] theorem State.pc_abandon (s : State) : (s.abandon).pc = s.pc := by simp [State.abandon]
@[simp] theorem State.sp_abandon (s : State) : (s.abandon).sp = s.sp := by simp [State.abandon]
@[simp] theorem State.stack_abandon (s : State) : (s.abandon).stack = s.stack := by simp [State.abandon]
@[simp] theorem State.dt_abandon (s : State) : (s.abandon).dt = s.dt := by simp [State.abandon]
@[simp] theorem State.st_abandon (s : State) : (s.abandon).st = s.st := by simp [State.abandon]
@[simp] theorem State.ir_abandon (s : State) : (s.abandon).ir = s.ir := by simp [State.abandon]
@[simp] theorem State.mem_abandon (s : State) : (s.abandon).mem = s.mem := by simp [State.abandon]
@[simp] theorem State.fb_abandon (s : State) : (s.abandon).fb = s.fb := by simp [State.abandon]
@[simp] theorem State.run_abandon (s : State) : (s.abandon).run = s.run := by simp [State.abandon]
@[simp] theorem State.faultCause_abandon (s : State) : (s.abandon).faultCause = s.faultCause := by simp [State.abandon]
@[simp] theorem State.faultPc_abandon (s : State) : (s.abandon).faultPc = s.faultPc := by simp [State.abandon]
@[simp] theorem State.faultInfo_abandon (s : State) : (s.abandon).faultInfo = s.faultInfo := by simp [State.abandon]
@[simp] theorem State.warn_abandon (s : State) : (s.abandon).warn = none := by simp [State.abandon]

/-! ## present -/

@[simp] theorem State.v_present (s : State) (inp : CycleInput) : (s.present inp).v = s.v := rfl
@[simp] theorem State.i_present (s : State) (inp : CycleInput) : (s.present inp).i = s.i := rfl
@[simp] theorem State.pc_present (s : State) (inp : CycleInput) : (s.present inp).pc = s.pc := rfl
@[simp] theorem State.sp_present (s : State) (inp : CycleInput) : (s.present inp).sp = s.sp := rfl
@[simp] theorem State.stack_present (s : State) (inp : CycleInput) : (s.present inp).stack = s.stack := rfl
@[simp] theorem State.dt_present (s : State) (inp : CycleInput) : (s.present inp).dt = s.dt := rfl
@[simp] theorem State.st_present (s : State) (inp : CycleInput) : (s.present inp).st = s.st := rfl
@[simp] theorem State.ir_present (s : State) (inp : CycleInput) : (s.present inp).ir = s.ir := rfl
@[simp] theorem State.mem_present (s : State) (inp : CycleInput) : (s.present inp).mem = s.mem := rfl
@[simp] theorem State.fb_present (s : State) (inp : CycleInput) : (s.present inp).fb = s.fb := rfl
@[simp] theorem State.run_present (s : State) (inp : CycleInput) : (s.present inp).run = s.run := rfl
@[simp] theorem State.faultCause_present (s : State) (inp : CycleInput) : (s.present inp).faultCause = s.faultCause := rfl
@[simp] theorem State.faultPc_present (s : State) (inp : CycleInput) : (s.present inp).faultPc = s.faultPc := rfl
@[simp] theorem State.faultInfo_present (s : State) (inp : CycleInput) : (s.present inp).faultInfo = s.faultInfo := rfl
@[simp] theorem State.inputs_present (s : State) (inp : CycleInput) : (s.present inp).inputs = inp :: s.inputs := rfl
@[simp] theorem State.draws_present (s : State) (inp : CycleInput) : (s.present inp).draws = s.draws := rfl
@[simp] theorem State.warn_present (s : State) (inp : CycleInput) : (s.present inp).warn = s.warn := rfl

@[simp] theorem State.input_present (s : State) (inp : CycleInput) : (s.present inp).input = inp := rfl

/-! ## Registers seen through the updates -/

@[simp] theorem State.reg_skipIf (s : State) (c : Bool) (k : RegIdx) : (s.skipIf c).reg k = s.reg k := by
  simp [State.reg]
@[simp] theorem State.reg_raise (s : State) (pc0 : Word) (f : Fault) (k : RegIdx) : (s.raise pc0 f).reg k = s.reg k := by
  simp [State.reg]
@[simp] theorem State.reg_advance (s : State) (k : RegIdx) : (s.advance).reg k = s.reg k := by
  simp [State.reg]
@[simp] theorem State.reg_tick (s : State) (k : RegIdx) : (s.tick).reg k = s.reg k := by
  simp [State.reg]
@[simp] theorem State.reg_consumeInput (s : State) (k : RegIdx) : (s.consumeInput).reg k = s.reg k := by
  simp [State.reg]
@[simp] theorem State.reg_finish (s : State) (w : Word) (e : Option Word) (k : RegIdx) : (s.finish w e).reg k = s.reg k := by
  simp [State.reg]
@[simp] theorem State.reg_abandon (s : State) (k : RegIdx) : (s.abandon).reg k = s.reg k := by
  simp [State.reg]
@[simp] theorem State.reg_present (s : State) (inp : CycleInput) (k : RegIdx) : (s.present inp).reg k = s.reg k := by
  simp [State.reg]

theorem State.reg_setResultAndFlag (s : State) (x k : RegIdx) (r : Byte) (f : Bool) :
    (s.setResultAndFlag x r f).reg k = if k = vf then flagByte f else if k = x then r else s.reg k := by
  simp [State.setResultAndFlag, State.setFlag, State.reg_setReg]

/-- Writing registers changes the register file alone. -/
theorem State.setReg_eq (s : State) (k : RegIdx) (b : Byte) :
    s.setReg k b = { s with v := (s.setReg k b).v } := rfl

theorem State.setResultAndFlag_eq (s : State) (x : RegIdx) (r : Byte) (f : Bool) :
    s.setResultAndFlag x r f = { s with v := (s.setResultAndFlag x r f).v } := rfl

theorem flagByte_cases (f : Bool) : flagByte f = 0x00#8 ∨ flagByte f = 0x01#8 := by
  cases f <;> decide

end Sys2Proof.Machine
end

