-- ==== Sys2Proof/Laws/Ops.lean ====
section
/-!
SUPPORT. Everything each shared operation can do, said once: completing or failing, the call stack, fetch, the register
loads and stores, the inputs.
-/

namespace Sys2Proof.Machine

/-! ## Completing an execute phase -/

@[simp] theorem State.complete_ok (s t : State) : s.complete (.ok t) = .next t := rfl

@[simp] theorem State.complete_error (s : State) (f : Fault) :
    s.complete (.error f) = .next (s.raise (s.pc - 2#16) f) := rfl

/-- An execute phase always answers with a next state. -/
theorem State.complete_next (s : State) (r : Except Fault State) : ∃ t, s.complete r = .next t := by
  cases r <;> simp

/-- The next state is the handler's result, or the state the handler began in with the fatal error taken. -/
theorem State.complete_cases {s t : State} {r : Except Fault State} (h : s.complete r = .next t) :
    r = .ok t ∨ ∃ f, r = .error f ∧ t = s.raise (s.pc - 2#16) f := by
  cases r with
  | ok u => simp only [State.complete_ok, Host.Outcome.next.injEq] at h; exact .inl (by rw [h])
  | error f =>
    simp only [State.complete_error, Host.Outcome.next.injEq] at h
    exact .inr ⟨f, rfl, h.symm⟩

/-! ## The call stack -/

theorem State.push_ok {s : State} (h : s.sp.val < 16) :
    s.push = .ok { s with stack := s.stack.set s.sp.val s.pc h, sp := ⟨s.sp.val + 1, by omega⟩ } := by
  simp [State.push, h]

theorem State.push_error {s : State} (h : s.sp.val = 16) : s.push = .error (.stackError 16#16) := by
  have : ¬ s.sp.val < 16 := by omega
  unfold State.push
  rw [dif_neg this, h]

theorem State.pop_ok {s : State} (h : 0 < s.sp.val) :
    s.pop = .ok { s with pc := s.stack[s.sp.val - 1]'(by omega), sp := ⟨s.sp.val - 1, by omega⟩ } := by
  unfold State.pop
  rw [dif_pos h]

theorem State.pop_error {s : State} (h : s.sp.val = 0) : s.pop = .error (.stackError 0#16) := by
  have : ¬ 0 < s.sp.val := by omega
  unfold State.pop
  rw [dif_neg this, h]

/-- Everything a push can do. -/
theorem State.push_cases (s : State) :
    (∃ h : s.sp.val < 16,
      s.push = .ok { s with stack := s.stack.set s.sp.val s.pc h, sp := ⟨s.sp.val + 1, by omega⟩ }) ∨
    (s.sp.val = 16 ∧ s.push = .error (.stackError 16#16)) := by
  by_cases h : s.sp.val < 16
  · exact .inl ⟨h, State.push_ok h⟩
  · exact .inr ⟨by omega, State.push_error (by omega)⟩

/-- Everything a pop can do. -/
theorem State.pop_cases (s : State) :
    (∃ h : 0 < s.sp.val,
      s.pop = .ok { s with pc := s.stack[s.sp.val - 1]'(by omega), sp := ⟨s.sp.val - 1, by omega⟩ }) ∨
    (s.sp.val = 0 ∧ s.pop = .error (.stackError 0#16)) := by
  by_cases h : 0 < s.sp.val
  · exact .inl ⟨h, State.pop_ok h⟩
  · exact .inr ⟨by omega, State.pop_error (by omega)⟩

/-! ## Fetch -/

theorem State.fetch_ok {s : State} (h : s.pc.toNat ≤ 0x0FFE) :
    s.fetch = .ok (wordOfBytes (s.mem.read s.pc.toNat) (s.mem.read (s.pc.toNat + 1))) := by
  simp [State.fetch, checkRange_ok (a := s.pc.toNat) (len := 2) (by omega), Except.map]

theorem State.fetch_error {s : State} (h : 0x0FFE < s.pc.toNat) :
    s.fetch = .error (.boundsError (BitVec.ofNat 16 (max s.pc.toNat 0x1000))) := by
  simp [State.fetch, checkRange_error (a := s.pc.toNat) (len := 2) (by omega), Except.map]

/-! ## Accesses at I -/

theorem State.loadAtI_ok {s : State} {len : Nat} (h : len = 0 ∨ s.i.toNat + len ≤ 0x1000) :
    s.loadAtI len = .ok (s.mem.readBytes s.i.toNat len) := memRead_ok h

theorem State.loadAtI_error {s : State} {len : Nat} (h : 0 < len ∧ 0x1000 < s.i.toNat + len) :
    s.loadAtI len = .error (.boundsError (BitVec.ofNat 16 (max s.i.toNat 0x1000))) := memRead_error h

theorem State.storeAtI_ok {s : State} {bytes : List Byte}
    (h : bytes.length = 0 ∨ s.i.toNat + bytes.length ≤ 0x1000) :
    s.storeAtI bytes = .ok { s with mem := s.mem.writeBytes s.i.toNat bytes } := by
  have := memWrite_ok (m := s.mem) h
  simp only [State.storeAtI, State.base]
  rw [this]
  rfl

theorem State.storeAtI_error {s : State} {bytes : List Byte}
    (h : 0 < bytes.length ∧ 0x1000 < s.i.toNat + bytes.length) :
    s.storeAtI bytes = .error (.boundsError (BitVec.ofNat 16 (max s.i.toNat 0x1000))) := by
  have := memWrite_error (m := s.mem) h
  simp only [State.storeAtI, State.base]
  rw [this]
  rfl

/-- Everything a load at `I` can do. -/
theorem State.loadAtI_cases (s : State) (len : Nat) :
    ((len = 0 ∨ s.i.toNat + len ≤ 0x1000) ∧ s.loadAtI len = .ok (s.mem.readBytes s.i.toNat len)) ∨
    ((0 < len ∧ 0x1000 < s.i.toNat + len) ∧
      s.loadAtI len = .error (.boundsError (BitVec.ofNat 16 (max s.i.toNat 0x1000)))) := by
  by_cases h : len = 0 ∨ s.i.toNat + len ≤ 0x1000
  · exact .inl ⟨h, State.loadAtI_ok h⟩
  · exact .inr ⟨by omega, State.loadAtI_error (by omega)⟩

/-- Everything a store at `I` can do. -/
theorem State.storeAtI_cases (s : State) (bytes : List Byte) :
    ((bytes.length = 0 ∨ s.i.toNat + bytes.length ≤ 0x1000) ∧
      s.storeAtI bytes = .ok { s with mem := s.mem.writeBytes s.i.toNat bytes }) ∨
    ((0 < bytes.length ∧ 0x1000 < s.i.toNat + bytes.length) ∧
      s.storeAtI bytes = .error (.boundsError (BitVec.ofNat 16 (max s.i.toNat 0x1000)))) := by
  by_cases h : bytes.length = 0 ∨ s.i.toNat + bytes.length ≤ 0x1000
  · exact .inl ⟨h, State.storeAtI_ok h⟩
  · exact .inr ⟨by omega, State.storeAtI_error (by omega)⟩

/-- The value a range error reports: the base when it is outside memory, else 0x1000. -/
theorem rangeInfo (a : Word) :
    BitVec.ofNat 16 (max a.toNat 0x1000) = if 0x1000 ≤ a.toNat then a else 0x1000#16 := by
  split
  · next h => rw [Nat.max_eq_left h, BitVec.ofNat_toNat, BitVec.setWidth_eq]
  · next h => rw [Nat.max_eq_right (by omega)]

theorem rangeInfo_ge (a : Word) : 0x1000 ≤ (BitVec.ofNat 16 (max a.toNat 0x1000)).toNat := by
  rw [rangeInfo]
  split
  · assumption
  · decide

/-! ## Register ranges -/

@[simp] theorem State.length_regsUpTo (s : State) (x : RegIdx) : (s.regsUpTo x).length = x.val + 1 := by
  rw [State.regsUpTo, List.length_take, Vector.length_toList]
  omega

theorem State.regsUpTo_getElem (s : State) (x : RegIdx) (k : Nat) (hk : k < (s.regsUpTo x).length) :
    (s.regsUpTo x)[k] = s.reg ⟨k, by simp at hk; omega⟩ := by
  simp [State.regsUpTo, State.reg]

theorem loadRegs_get (v : Vector Byte 16) (k : Nat) (bytes : List Byte) (j : Nat) (hj : j < 16) :
    (loadRegs v k bytes)[j] =
      if h : k ≤ j ∧ j < k + bytes.length then bytes[j - k]'(by omega) else v[j] := by
  induction bytes generalizing v k with
  | nil =>
    rw [loadRegs, dif_neg (by simp only [List.length_nil]; omega)]
  | cons b rest ih =>
    rw [loadRegs, ih]
    simp only [List.length_cons]
    by_cases hkj : k = j
    · subst hkj
      rw [dif_neg (by omega), dif_pos (by omega)]
      simp
    · by_cases hin : k + 1 ≤ j ∧ j < k + 1 + rest.length
      · rw [dif_pos hin, dif_pos (by omega)]
        rw [List.getElem_cons, dif_neg (by omega)]
        congr 1
      · rw [dif_neg hin, dif_neg (by omega)]
        simp [hkj]

/-- Registers `V[0]` to `V[len - 1]` loaded from memory, the others as they were. -/
theorem loadRegs_readBytes (s : State) (len : Nat) (k : RegIdx) :
    (loadRegs s.v 0 (s.mem.readBytes s.i.toNat len))[k] =
      if k.val < len then s.mem.read (s.i.toNat + k.val) else s.reg k := by
  rw [Fin.getElem_fin, loadRegs_get]
  by_cases h : k.val < len
  · rw [dif_pos (by simpa using h), if_pos h]
    have := Memory.readBytes_getElem? s.mem s.i.toNat len k.val h
    rw [List.getElem?_eq_some_iff] at this
    obtain ⟨_, he⟩ := this
    simpa using he
  · rw [dif_neg (by simpa using h), if_neg h]
    rfl

/-! ## Inputs -/

theorem State.keyDown_ok {s : State} {k : Byte} (h : k.toNat < 16) :
    s.keyDown k = .ok (s.input.keys[k.toNat]) := by
  unfold State.keyDown
  rw [dif_pos h]

theorem State.keyDown_error {s : State} {k : Byte} (h : 16 ≤ k.toNat) :
    s.keyDown k = .error (.boundsError (byteToWord k)) := by
  unfold State.keyDown
  rw [dif_neg (by omega)]

@[simp] theorem byteToWord_toNat (b : Byte) : (byteToWord b).toNat = b.toNat := by
  have := b.isLt
  simp only [byteToWord, BitVec.toNat_setWidth]
  omega

@[simp] theorem addressToWord_toNat (a : BitVec 12) : (addressToWord a).toNat = a.toNat := by
  have := a.isLt
  simp only [addressToWord, BitVec.toNat_setWidth]
  omega

/-- Everything the key test can do. -/
theorem State.keyDown_cases (s : State) (k : Byte) :
    (∃ h : k.toNat < 16, s.keyDown k = .ok (s.input.keys[k.toNat])) ∨
    (16 ≤ k.toNat ∧ s.keyDown k = .error (.boundsError (byteToWord k))) := by
  by_cases h : k.toNat < 16
  · exact .inl ⟨h, State.keyDown_ok h⟩
  · exact .inr ⟨by omega, State.keyDown_error (by omega)⟩

theorem mem_allKeys (k : Key) : k ∈ allKeys := by
  revert k
  decide

/-- The key reported is down. -/
theorem CycleInput.anyKey_some {inp : CycleInput} {k : Key} (h : inp.anyKey = some k) : inp.keys[k] = true := by
  unfold CycleInput.anyKey at h
  split at h
  · next hc => simp only [Option.some.injEq] at h; subst h; exact hc
  · simpa using List.find?_some h

/-- No key is reported only when none is down. -/
theorem CycleInput.anyKey_none {inp : CycleInput} (h : inp.anyKey = none) (k : Key) : inp.keys[k] = false := by
  unfold CycleInput.anyKey at h
  split at h
  · simp at h
  · rw [List.find?_eq_none] at h
    simpa using h k (mem_allKeys k)

/-! ## Timers -/

theorem tickTimer_toNat (t : Byte) : (tickTimer t).toNat = t.toNat - 1 := by
  unfold tickTimer
  split
  · next h => subst h; rfl
  · next h =>
    have : t.toNat ≠ 0 := fun e => h (BitVec.eq_of_toNat_eq (by simpa using e))
    have hl := t.isLt
    rw [BitVec.toNat_sub]
    simp
    omega

end Sys2Proof.Machine
end

