-- ==== Sys2Proof/Laws/Display.lean ====
section
/-!
SUPPORT. The display: a pixel after one toggle, and the closed form of a sprite: which pixels a row, and then a whole
sprite, turns over, and when it collides (44_display.md R211, R214, R215).
-/

namespace Sys2Proof.Machine

/-! ## One pixel -/

theorem Framebuffer.pixel_mod (fb : Framebuffer) (px py : Nat) : fb.pixel (px % 64) (py % 32) = fb.pixel px py := by
  simp [Framebuffer.pixel]

theorem Framebuffer.pixel_congr (fb : Framebuffer) {px py qx qy : Nat} (hx : px % 64 = qx % 64)
    (hy : py % 32 = qy % 32) : fb.pixel px py = fb.pixel qx qy := by
  rw [← fb.pixel_mod px py, hx, hy, fb.pixel_mod]

@[simp] theorem Framebuffer.pixel_blank (px py : Nat) : Framebuffer.blank.pixel px py = false := by
  simp [Framebuffer.pixel, Framebuffer.blank]

@[simp] theorem Framebuffer.pixel_clear (fb : Framebuffer) (px py : Nat) : fb.clear.pixel px py = false :=
  Framebuffer.pixel_blank px py

theorem Framebuffer.pixel_setPixel (fb : Framebuffer) (px py qx qy : Nat) (b : Bool) :
    (fb.setPixel px py b).pixel qx qy = if qx % 64 = px % 64 ∧ qy % 32 = py % 32 then b else fb.pixel qx qy := by
  unfold Framebuffer.pixel Framebuffer.setPixel
  by_cases hy : py % 32 = qy % 32
  · by_cases hx : px % 64 = qx % 64 <;> simp [hx, hy, eq_comm]
  · simp [hy, eq_comm]

theorem Framebuffer.pixel_toggle (fb : Framebuffer) (px py qx qy : Nat) (b : Bool) :
    (fb.toggle px py b).1.pixel qx qy =
      Bool.xor (fb.pixel qx qy) (decide (qx % 64 = px % 64 ∧ qy % 32 = py % 32) && b) := by
  rw [Framebuffer.toggle, Framebuffer.pixel_setPixel]
  split
  · next h => rw [fb.pixel_congr h.1 h.2]; simp [h]
  · next h => simp [h]

@[simp] theorem Framebuffer.toggle_collided (fb : Framebuffer) (px py : Nat) (b : Bool) :
    (fb.toggle px py b).2 = (fb.pixel px py && b) := rfl

/-! ## A row of a sprite -/

/-- How far right of column `px` column `qx` lies, around the edge. -/
def columnOffset (px qx : Nat) : Nat := (qx % 64 + 64 - px % 64) % 64

/-- How far below row `py` row `qy` lies, around the edge. -/
def rowOffset (py qy : Nat) : Nat := (qy % 32 + 32 - py % 32) % 32

theorem Framebuffer.pixel_drawBits (fb : Framebuffer) (px py : Nat) (bits : List Bool) (hlen : bits.length ≤ 64)
    (qx qy : Nat) :
    (fb.drawBits px py bits).1.pixel qx qy =
      Bool.xor (fb.pixel qx qy) (decide (qy % 32 = py % 32) && bits.getD (columnOffset px qx) false) := by
  induction bits generalizing fb px with
  | nil => simp [Framebuffer.drawBits]
  | cons b rest ih =>
    simp only [List.length_cons] at hlen
    rw [Framebuffer.drawBits]
    simp only
    rw [ih _ _ (by omega), Framebuffer.pixel_toggle]
    by_cases hx : qx % 64 = px % 64
    · have h0 : columnOffset px qx = 0 := by unfold columnOffset; omega
      have h1 : columnOffset (px + 1) qx = 63 := by unfold columnOffset; omega
      have h2 : rest.getD 63 false = false := by
        rw [List.getD_eq_getElem?_getD, List.getElem?_eq_none (by omega)]
        rfl
      rw [h0, h1, h2]
      simp [hx]
    · have h0 : columnOffset px qx = columnOffset (px + 1) qx + 1 := by unfold columnOffset; omega
      rw [h0]
      simp [hx]

theorem Framebuffer.collided_drawBits (fb : Framebuffer) (px py : Nat) (bits : List Bool) (hlen : bits.length ≤ 64) :
    (fb.drawBits px py bits).2 = true ↔
      ∃ c, c < bits.length ∧ bits.getD c false = true ∧ fb.pixel (px + c) py = true := by
  induction bits generalizing fb px with
  | nil => simp [Framebuffer.drawBits]
  | cons b rest ih =>
    simp only [List.length_cons] at hlen
    rw [Framebuffer.drawBits]
    simp only [Framebuffer.toggle_collided, Bool.or_eq_true, Bool.and_eq_true]
    rw [ih _ _ (by omega)]
    have hp : ∀ c, c < rest.length →
        (fb.toggle px py b).1.pixel (px + 1 + c) py = fb.pixel (px + (c + 1)) py := by
      intro c hc
      rw [Framebuffer.pixel_toggle, show px + 1 + c = px + (c + 1) by omega]
      have : ¬ (px + (c + 1)) % 64 = px % 64 := by omega
      simp [this]
    constructor
    · rintro (⟨h1, h2⟩ | ⟨c, hc, h1, h2⟩)
      · exact ⟨0, by simp, by simpa using h2, by simpa using h1⟩
      · refine ⟨c + 1, by simp; omega, by simpa using h1, ?_⟩
        rw [← hp c hc]
        exact h2
    · rintro ⟨c, hc, h1, h2⟩
      cases c with
      | zero => exact .inl ⟨by simpa using h2, by simpa using h1⟩
      | succ d =>
        simp only [List.length_cons] at hc
        refine .inr ⟨d, by omega, by simpa using h1, ?_⟩
        rw [hp d (by omega)]
        exact h2

@[simp] theorem length_rowBits (row : Byte) : (rowBits row).length = 8 := rfl

theorem rowBits_getD (row : Byte) (c : Nat) :
    (rowBits row).getD c false = (decide (c < 8) && row.getLsbD (7 - c)) := by
  match c with
  | 0 | 1 | 2 | 3 | 4 | 5 | 6 | 7 => simp [rowBits]
  | n + 8 => simp [rowBits, show ¬ n + 8 < 8 by omega]

@[simp] theorem rowBits_zero_getD (c : Nat) : (rowBits 0x00#8).getD c false = false := by
  rw [rowBits_getD]
  simp

/-! ## A whole sprite -/

/-- The bit a sprite's row list puts on a pixel. -/
def rowsBit (px py : Nat) (rows : List Byte) (qx qy : Nat) : Bool :=
  (rowBits (rows.getD (rowOffset py qy) 0x00#8)).getD (columnOffset px qx) false

theorem Framebuffer.pixel_drawRows (fb : Framebuffer) (px py : Nat) (rows : List Byte) (hlen : rows.length ≤ 32)
    (qx qy : Nat) :
    (fb.drawRows px py rows).1.pixel qx qy = Bool.xor (fb.pixel qx qy) (rowsBit px py rows qx qy) := by
  induction rows generalizing fb py with
  | nil =>
    have : rowsBit px py [] qx qy = false := rowBits_zero_getD _
    rw [this]
    simp [Framebuffer.drawRows]
  | cons row rest ih =>
    simp only [List.length_cons] at hlen
    rw [Framebuffer.drawRows]
    simp only
    rw [ih _ _ (by omega), Framebuffer.pixel_drawBits _ _ _ _ (by simp)]
    by_cases hy : qy % 32 = py % 32
    · have h0 : rowOffset py qy = 0 := by unfold rowOffset; omega
      have h1 : rowOffset (py + 1) qy = 31 := by unfold rowOffset; omega
      have h2 : rest.getD 31 0x00#8 = 0x00#8 := by
        rw [List.getD_eq_getElem?_getD, List.getElem?_eq_none (by omega)]
        rfl
      have hr : rowsBit px (py + 1) rest qx qy = false := by
        unfold rowsBit
        rw [h1, h2]
        exact rowBits_zero_getD _
      rw [hr]
      simp [rowsBit, h0, hy]
    · have h0 : rowOffset py qy = rowOffset (py + 1) qy + 1 := by unfold rowOffset; omega
      simp [rowsBit, h0, hy]

theorem Framebuffer.collided_drawRows (fb : Framebuffer) (px py : Nat) (rows : List Byte) (hlen : rows.length ≤ 32) :
    (fb.drawRows px py rows).2 = true ↔
      ∃ r c, r < rows.length ∧ c < 8 ∧ (rows.getD r 0x00#8).getLsbD (7 - c) = true ∧
        fb.pixel (px + c) (py + r) = true := by
  induction rows generalizing fb py with
  | nil => simp [Framebuffer.drawRows]
  | cons row rest ih =>
    simp only [List.length_cons] at hlen
    rw [Framebuffer.drawRows]
    simp only [Bool.or_eq_true]
    rw [ih _ _ (by omega), Framebuffer.collided_drawBits _ _ _ _ (by simp)]
    have hp : ∀ r c, r < rest.length →
        (fb.drawBits px py (rowBits row)).1.pixel (px + c) (py + 1 + r) = fb.pixel (px + c) (py + (r + 1)) := by
      intro r c hr
      rw [Framebuffer.pixel_drawBits _ _ _ _ (by simp), show py + 1 + r = py + (r + 1) by omega]
      have : ¬ (py + (r + 1)) % 32 = py % 32 := by omega
      simp [this]
    constructor
    · rintro (⟨c, hc, h1, h2⟩ | ⟨r, c, hr, hc, h1, h2⟩)
      · rw [rowBits_getD] at h1
        exact ⟨0, c, by simp, hc, by simpa using (Bool.and_eq_true _ _ ▸ h1).2, by simpa using h2⟩
      · refine ⟨r + 1, c, by simp; omega, hc, by simpa using h1, ?_⟩
        rw [← hp r c hr]
        exact h2
    · rintro ⟨r, c, hr, hc, h1, h2⟩
      cases r with
      | zero =>
        refine .inl ⟨c, by simpa using hc, ?_, by simpa using h2⟩
        rw [rowBits_getD]
        simp only [hc, decide_true, Bool.true_and]
        simpa using h1
      | succ d =>
        simp only [List.length_cons] at hr
        refine .inr ⟨d, c, by omega, hc, by simpa using h1, ?_⟩
        rw [hp d c (by omega)]
        exact h2

end Sys2Proof.Machine
end

