-- ==== Sys2Proof/Laws/Encoding.lean ====
section
/-!
SUPPORT. Fields of a word put together from its fields, for every format of 30_encoding.md R92, and a word put back
together from the fields read from it.
-/

namespace Sys2Proof

/-! ## Cutting a concatenation -/

theorem extract_high {m n : Nat} (a : BitVec m) (b : BitVec n) (lo len : Nat) :
    (a ++ b).extractLsb' (n + lo) len = a.extractLsb' lo len := by
  ext k hk
  simp [BitVec.getLsbD_append, Nat.add_assoc]

theorem extract_low {m n : Nat} (a : BitVec m) (b : BitVec n) (lo len : Nat) (h : lo + len ≤ n) :
    (a ++ b).extractLsb' lo len = b.extractLsb' lo len := by
  ext k hk
  have : lo + k < n := by omega
  simp [BitVec.getLsbD_append, this]

theorem extract_all {n : Nat} (a : BitVec n) : a.extractLsb' 0 n = a := by
  ext k hk
  simp

theorem extract_join {n : Nat} (w : BitVec n) (lo a b : Nat) :
    w.extractLsb' (lo + b) a ++ w.extractLsb' lo b = w.extractLsb' lo (a + b) := by
  ext k hk
  by_cases h : k < b
  · simp [BitVec.getElem_append, h]
  · simp [BitVec.getElem_append, h, show lo + b + (k - b) = lo + k by omega]

@[simp] theorem nibble_toFin (x : BitVec 4) : nibble x.toFin = x := rfl

/-! ## Format NNN -/

@[simp] theorem opOf_nnn (h : BitVec 4) (nnn : BitVec 12) : opOf (h ++ nnn) = h :=
  (extract_high h nnn 0 4).trans (extract_all h)

@[simp] theorem nnnOf_nnn (h : BitVec 4) (nnn : BitVec 12) : nnnOf (h ++ nnn) = nnn :=
  (extract_low h nnn 0 12 (by omega)).trans (extract_all nnn)

/-! ## Formats XNN and XSS -/

@[simp] theorem opOf_xnn (h x : BitVec 4) (nn : Byte) : opOf (h ++ x ++ nn) = h :=
  (extract_high (h ++ x) nn 4 4).trans ((extract_high h x 0 4).trans (extract_all h))

@[simp] theorem xOf_xnn (h : BitVec 4) (x : RegIdx) (nn : Byte) : xOf (h ++ nibble x ++ nn) = x :=
  congrArg BitVec.toFin
    ((extract_high (h ++ nibble x) nn 0 4).trans ((extract_low h (nibble x) 0 4 (by omega)).trans (extract_all _)))

@[simp] theorem nnOf_xnn (h x : BitVec 4) (nn : Byte) : nnOf (h ++ x ++ nn) = nn :=
  (extract_low (h ++ x) nn 0 8 (by omega)).trans (extract_all nn)

/-! ## Formats XY, XYS, XYN and XS -/

@[simp] theorem opOf_xyn (h x y n : BitVec 4) : opOf (h ++ x ++ y ++ n) = h :=
  (extract_high (h ++ x ++ y) n 8 4).trans
    ((extract_high (h ++ x) y 4 4).trans ((extract_high h x 0 4).trans (extract_all h)))

@[simp] theorem xOf_xyn (h : BitVec 4) (x : RegIdx) (y n : BitVec 4) : xOf (h ++ nibble x ++ y ++ n) = x :=
  congrArg BitVec.toFin
    ((extract_high (h ++ nibble x ++ y) n 4 4).trans ((extract_high (h ++ nibble x) y 0 4).trans
      ((extract_low h (nibble x) 0 4 (by omega)).trans (extract_all _))))

@[simp] theorem yDigitOf_xyn (h x y n : BitVec 4) : yDigitOf (h ++ x ++ y ++ n) = y :=
  (extract_high (h ++ x ++ y) n 0 4).trans ((extract_low (h ++ x) y 0 4 (by omega)).trans (extract_all _))

@[simp] theorem yOf_xyn (h x : BitVec 4) (y : RegIdx) (n : BitVec 4) : yOf (h ++ x ++ nibble y ++ n) = y :=
  congrArg BitVec.toFin (yDigitOf_xyn h x (nibble y) n)

@[simp] theorem lowNibbleOf_xyn (h x y n : BitVec 4) : lowNibbleOf (h ++ x ++ y ++ n) = n :=
  (extract_low (h ++ x ++ y) n 0 4 (by omega)).trans (extract_all n)

@[simp] theorem nOf_xyn (h x y : BitVec 4) (n : Fin 16) : nOf (h ++ x ++ y ++ nibble n) = n :=
  congrArg BitVec.toFin (lowNibbleOf_xyn h x y (nibble n))

/-! ## Format Z -/

@[simp] theorem opOf_z (h : BitVec 4) (mid : BitVec 8) (n : BitVec 4) : opOf (h ++ mid ++ n) = h :=
  (extract_high (h ++ mid) n 8 4).trans ((extract_high h mid 0 4).trans (extract_all h))

@[simp] theorem midOf_z (h : BitVec 4) (mid : BitVec 8) (n : BitVec 4) : midOf (h ++ mid ++ n) = mid :=
  (extract_high (h ++ mid) n 0 8).trans ((extract_low h mid 0 8 (by omega)).trans (extract_all mid))

@[simp] theorem lowNibbleOf_z (h : BitVec 4) (mid : BitVec 8) (n : BitVec 4) : lowNibbleOf (h ++ mid ++ n) = n :=
  (extract_low (h ++ mid) n 0 4 (by omega)).trans (extract_all n)

/-! ## A word from its fields -/

theorem word_of_nnn (w : Word) : (opOf w ++ nnnOf w : Word) = w :=
  (extract_join w 0 4 12).trans (extract_all w)

theorem word_of_xnn (w : Word) : (opOf w ++ nibble (xOf w) ++ nnOf w : Word) = w := by
  have h1 : opOf w ++ nibble (xOf w) = w.extractLsb' 8 8 := extract_join w 8 4 4
  rw [h1]
  exact (extract_join w 0 8 8).trans (extract_all w)

theorem word_of_xyn (w : Word) : (opOf w ++ nibble (xOf w) ++ yDigitOf w ++ lowNibbleOf w : Word) = w := by
  have h1 : opOf w ++ nibble (xOf w) = w.extractLsb' 8 8 := extract_join w 8 4 4
  have h2 : w.extractLsb' 8 8 ++ yDigitOf w = w.extractLsb' 4 12 := extract_join w 4 8 4
  rw [h1, h2]
  exact (extract_join w 0 12 4).trans (extract_all w)

theorem word_of_z (w : Word) : (opOf w ++ midOf w ++ lowNibbleOf w : Word) = w := by
  have h1 : opOf w ++ midOf w = w.extractLsb' 4 12 := extract_join w 4 4 8
  rw [h1]
  exact (extract_join w 0 12 4).trans (extract_all w)

@[simp] theorem nibble_yOf (w : Word) : nibble (yOf w) = yDigitOf w := rfl

@[simp] theorem nibble_nOf (w : Word) : nibble (nOf w) = lowNibbleOf w := rfl

/-- The sixteen values of a digit. -/
theorem digit_cases (o : BitVec 4) : o = 0x0#4 ∨ o = 0x1#4 ∨ o = 0x2#4 ∨ o = 0x3#4 ∨ o = 0x4#4 ∨ o = 0x5#4 ∨
    o = 0x6#4 ∨ o = 0x7#4 ∨ o = 0x8#4 ∨ o = 0x9#4 ∨ o = 0xA#4 ∨ o = 0xB#4 ∨ o = 0xC#4 ∨ o = 0xD#4 ∨ o = 0xE#4 ∨
    o = 0xF#4 := by
  revert o
  decide

/-! ## The masks of the opcode map (R106): a mask test is a test of fields -/

theorem append_and {m n : Nat} (a c : BitVec m) (b d : BitVec n) :
    (a ++ b) &&& (c ++ d) = (a &&& c) ++ (b &&& d) := by
  ext k hk
  by_cases h : k < n <;> simp [BitVec.getElem_append, h]

theorem append_inj {m n : Nat} {a c : BitVec m} {b d : BitVec n} : a ++ b = c ++ d ↔ a = c ∧ b = d := by
  constructor
  · intro h
    have high := congrArg (fun w => w.extractLsb' (n + 0) m) h
    have low := congrArg (fun w => w.extractLsb' 0 n) h
    simp only [extract_high, extract_all] at high
    rw [extract_low _ _ _ _ (by omega), extract_low _ _ _ _ (by omega), extract_all, extract_all] at low
    exact ⟨high, low⟩
  · rintro ⟨rfl, rfl⟩
    rfl

theorem and_ones_digit (a : BitVec 4) : a &&& 0xF#4 = a := by
  revert a
  decide

theorem and_ones_byte (a : BitVec 8) : a &&& 0xFF#8 = a := by
  revert a
  decide

/-- Mask F000: the family alone. -/
theorem accepts_op (w : Word) (k : BitVec 4) : w &&& 0xF000#16 = (k ++ 0x000#12 : Word) ↔ opOf w = k := by
  have hw : w &&& 0xF000#16 = (opOf w ++ 0x000#12 : Word) := by
    have h := append_and (opOf w) 0xF#4 (nnnOf w) 0x000#12
    rw [and_ones_digit, BitVec.and_zero] at h
    exact (congrArg (· &&& 0xF000#16) (word_of_nnn w).symm).trans h
  rw [hw]
  exact append_inj.trans (and_iff_left rfl)

/-- Mask F00F: the family and the low digit. -/
theorem accepts_op_low (w : Word) (k l : BitVec 4) :
    w &&& 0xF00F#16 = (k ++ 0x00#8 ++ l : Word) ↔ opOf w = k ∧ lowNibbleOf w = l := by
  have hw : w &&& 0xF00F#16 = (opOf w ++ 0x00#8 ++ lowNibbleOf w : Word) := by
    have h := append_and (opOf w ++ midOf w) (0xF#4 ++ 0x00#8) (lowNibbleOf w) 0xF#4
    rw [append_and (opOf w) 0xF#4 (midOf w) 0x00#8, and_ones_digit, and_ones_digit, BitVec.and_zero] at h
    exact (congrArg (· &&& 0xF00F#16) (word_of_z w).symm).trans h
  rw [hw]
  exact append_inj.trans (and_congr_left fun _ => append_inj.trans (and_iff_left rfl))

/-- Mask F0FF: the family and the low byte. -/
theorem accepts_op_nn (w : Word) (k : BitVec 4) (l : Byte) :
    w &&& 0xF0FF#16 = (k ++ 0x0#4 ++ l : Word) ↔ opOf w = k ∧ nnOf w = l := by
  have hw : w &&& 0xF0FF#16 = (opOf w ++ 0x0#4 ++ nnOf w : Word) := by
    have h := append_and (opOf w ++ nibble (xOf w)) (0xF#4 ++ 0x0#4) (nnOf w) 0xFF#8
    rw [append_and (opOf w) 0xF#4 (nibble (xOf w)) 0x0#4, and_ones_digit, and_ones_byte, BitVec.and_zero] at h
    exact (congrArg (· &&& 0xF0FF#16) (word_of_xnn w).symm).trans h
  rw [hw]
  exact append_inj.trans (and_congr_left fun _ => append_inj.trans (and_iff_left rfl))

/-- The two bytes of a word, high byte first, give the word back (20_memory.md R67). -/
theorem wordOfBytes_split (w : Word) : wordOfBytes (highByte w) (lowByte w) = w :=
  (extract_join w 0 8 8).trans (extract_all w)

end Sys2Proof
end

