-- ==== Sys2Proof/Laws/Exec.lean ====
section
/-!
SUPPORT. What an execute phase and a cycle can do, said once: every execute phase answers with a next state, which is
either the instruction's effect, with the run state and the fault report as they were, or a fatal error taken; and the
four ways a cycle can go.
-/

namespace Sys2Proof.Machine

/-- Every execute phase answers with a next state. -/
theorem exec_next (i : Instr) (s : State) : ∃ t, exec i s = .next t := by
  cases i <;> first
    | exact ⟨_, rfl⟩
    | exact State.complete_next s _

/-! ## The instructions that can fail: their effect where they do not -/

theorem exec_op2nnn_ok {s : State} (nnn : BitVec 12) (h : s.sp.val < 16) :
    exec (.op2nnn nnn) s =
      .next { s with
        pc := addressToWord nnn, stack := s.stack.set s.sp.val s.pc h, sp := ⟨s.sp.val + 1, by omega⟩ } := by
  simp only [exec, exec2nnn, State.push_ok h, Except.map, State.complete_ok]

theorem exec_op00EE_ok {s : State} (und : BitVec 8) (h : 0 < s.sp.val) :
    exec (.op00EE und) s =
      .next { s with pc := s.stack[s.sp.val - 1]'(by omega), sp := ⟨s.sp.val - 1, by omega⟩ } := by
  simp only [exec, exec00EE, State.pop_ok h, State.complete_ok]

theorem exec_opDxyn_ok {s : State} (x y : RegIdx) {n : Fin 16} (h : n.val = 0 ∨ s.i.toNat + n.val ≤ 0x1000) :
    exec (.opDxyn x y n) s = .next (s.drawSprite x y (s.mem.readBytes s.i.toNat n.val)) := by
  simp only [exec, execDxyn, State.loadAtI_ok h, Except.map, State.complete_ok]

theorem exec_opEx9E_ok {s : State} {x : RegIdx} (und : BitVec 4) (h : (s.reg x).toNat < 16) :
    exec (.opEx9E x und) s = .next (s.skipIf s.input.keys[(s.reg x).toNat]) := by
  simp only [exec, execEx9E, State.keyDown_ok h, Except.map, State.complete_ok]

theorem exec_opExA1_ok {s : State} {x : RegIdx} (und : BitVec 4) (h : (s.reg x).toNat < 16) :
    exec (.opExA1 x und) s = .next (s.skipIf (!s.input.keys[(s.reg x).toNat])) := by
  simp only [exec, execExA1, State.keyDown_ok h, Except.map, State.complete_ok]

theorem exec_opFx33_ok {s : State} {x : RegIdx} (h : s.i.toNat + 3 ≤ 0x1000) :
    exec (.opFx33 x) s = .next { s with mem := s.mem.writeBytes s.i.toNat (bcdDigits (s.reg x)) } := by
  simp only [exec, execFx33, State.storeAtI_ok (bytes := bcdDigits (s.reg x)) (.inr h), State.complete_ok]

theorem exec_opFx55_ok {s : State} {x : RegIdx} (h : s.i.toNat + (x.val + 1) ≤ 0x1000) :
    exec (.opFx55 x) s = .next { s with mem := s.mem.writeBytes s.i.toNat (s.regsUpTo x) } := by
  rw [← s.length_regsUpTo x] at h
  simp only [exec, execFx55, State.storeAtI_ok (.inr h), State.complete_ok]

theorem exec_opFx65_ok {s : State} {x : RegIdx} (h : s.i.toNat + (x.val + 1) ≤ 0x1000) :
    exec (.opFx65 x) s =
      .next { s with v := loadRegs s.v 0 (s.mem.readBytes s.i.toNat (x.val + 1)) } := by
  simp only [exec, execFx65, State.loadAtI_ok (.inr h), Except.map, State.complete_ok]

theorem exec_opFx0A_some {s : State} (x : RegIdx) {k : Key} (h : s.input.anyKey = some k) :
    exec (.opFx0A x) s = .next (s.setReg x (BitVec.ofNat 8 k.val)) := by
  simp only [exec, execFx0A, h]

theorem exec_opFx0A_none {s : State} (x : RegIdx) (h : s.input.anyKey = none) :
    exec (.opFx0A x) s = .next { s with pc := s.pc - 2#16 } := by
  simp only [exec, execFx0A, h]

/-- The values a fatal error reports (60_exceptions.md R256): for a BoundsError an address outside memory or a key
number above 15, for a StackError `SP`, at one of its ends. -/
def Fault.Reports (f : Fault) (s : State) : Prop :=
  match f with
  | .boundsError a => 0x1000 ≤ a.toNat ∨ 16 ≤ a.toNat ∧ a.toNat ≤ 255
  | .stackError n => n.toNat = s.sp.val ∧ (s.sp.val = 0 ∨ s.sp.val = 16)

/-- The part of the state no instruction's own effect touches: the run state, the fault report, `IR` and the model's
own fields. -/
def State.SameControl (s t : State) : Prop :=
  t.run = s.run ∧ t.faultCause = s.faultCause ∧ t.faultPc = s.faultPc ∧ t.faultInfo = s.faultInfo ∧
  t.ir = s.ir ∧ t.inputs = s.inputs ∧ t.draws = s.draws ∧ t.warn = s.warn

theorem State.sameControl_setReg (s : State) (k : RegIdx) (b : Byte) : s.SameControl (s.setReg k b) := by
  simp [State.SameControl]

theorem State.sameControl_skipIf (s : State) (c : Bool) : s.SameControl (s.skipIf c) := by
  simp [State.SameControl]

theorem State.sameControl_setResultAndFlag (s : State) (x : RegIdx) (r : Byte) (f : Bool) :
    s.SameControl (s.setResultAndFlag x r f) := by
  simp [State.SameControl, State.setResultAndFlag]

/-- An execute phase is the instruction's own effect or a fatal error taken. -/
theorem exec_cases {i : Instr} {s t : State} (h : exec i s = .next t) :
    s.SameControl t ∨ ∃ f : Fault, f.Reports s ∧ t = s.raise (s.pc - 2#16) f := by
  have done : ∀ {u : State}, s.complete (.ok u) = .next t → s.SameControl u →
      s.SameControl t ∨ ∃ f : Fault, f.Reports s ∧ t = s.raise (s.pc - 2#16) f := by
    intro u he hu
    simp only [State.complete_ok, Host.Outcome.next.injEq] at he
    exact .inl (he ▸ hu)
  have failed : ∀ {f : Fault}, s.complete (.error f) = .next t → f.Reports s →
      s.SameControl t ∨ ∃ f : Fault, f.Reports s ∧ t = s.raise (s.pc - 2#16) f := by
    intro f he hf
    simp only [State.complete_error, Host.Outcome.next.injEq] at he
    exact .inr ⟨f, hf, he.symm⟩
  have range : ∀ a : Word, Fault.Reports (.boundsError (BitVec.ofNat 16 (max a.toNat 0x1000))) s :=
    fun a => .inl (rangeInfo_ge a)
  have key : ∀ k : Byte, 16 ≤ k.toNat → Fault.Reports (.boundsError (byteToWord k)) s := by
    intro k hk
    refine .inr ⟨by simpa using hk, ?_⟩
    have := k.isLt
    simp only [byteToWord_toNat]
    omega
  cases i with
  | op00EE und =>
    obtain ⟨hs, e⟩ | ⟨hs, e⟩ := s.pop_cases <;> simp only [exec, exec00EE, e] at h
    · exact done h ⟨rfl, rfl, rfl, rfl, rfl, rfl, rfl, rfl⟩
    · exact failed h ⟨hs.symm, .inl hs⟩
  | op2nnn nnn =>
    obtain ⟨hs, e⟩ | ⟨hs, e⟩ := s.push_cases <;> simp only [exec, exec2nnn, e, Except.map] at h
    · exact done h ⟨rfl, rfl, rfl, rfl, rfl, rfl, rfl, rfl⟩
    · exact failed h ⟨hs.symm, .inr hs⟩
  | opDxyn x y n =>
    obtain ⟨-, e⟩ | ⟨-, e⟩ := s.loadAtI_cases n.val <;> simp only [exec, execDxyn, e, Except.map] at h
    · exact done h ⟨rfl, rfl, rfl, rfl, rfl, rfl, rfl, rfl⟩
    · exact failed h (range s.i)
  | opEx9E x und =>
    obtain ⟨_, e⟩ | ⟨hk, e⟩ := s.keyDown_cases (s.reg x) <;> simp only [exec, execEx9E, e, Except.map] at h
    · exact done h (s.sameControl_skipIf _)
    · exact failed h (key _ hk)
  | opExA1 x und =>
    obtain ⟨_, e⟩ | ⟨hk, e⟩ := s.keyDown_cases (s.reg x) <;> simp only [exec, execExA1, e, Except.map] at h
    · exact done h (s.sameControl_skipIf _)
    · exact failed h (key _ hk)
  | opFx33 x =>
    obtain ⟨-, e⟩ | ⟨-, e⟩ := s.storeAtI_cases (bcdDigits (s.reg x)) <;> simp only [exec, execFx33, e] at h
    · exact done h ⟨rfl, rfl, rfl, rfl, rfl, rfl, rfl, rfl⟩
    · exact failed h (range s.i)
  | opFx55 x =>
    obtain ⟨-, e⟩ | ⟨-, e⟩ := s.storeAtI_cases (s.regsUpTo x) <;> simp only [exec, execFx55, e] at h
    · exact done h ⟨rfl, rfl, rfl, rfl, rfl, rfl, rfl, rfl⟩
    · exact failed h (range s.i)
  | opFx65 x =>
    obtain ⟨-, e⟩ | ⟨-, e⟩ := s.loadAtI_cases (x.val + 1) <;> simp only [exec, execFx65, e, Except.map] at h
    · exact done h ⟨rfl, rfl, rfl, rfl, rfl, rfl, rfl, rfl⟩
    · exact failed h (range s.i)
  | opFx0A x =>
    simp only [exec, execFx0A, Host.Outcome.next.injEq] at h
    subst h
    left
    split
    · exact ⟨rfl, rfl, rfl, rfl, rfl, rfl, rfl, rfl⟩
    · exact s.sameControl_setReg _ _
  | op3xnn x nn | op4xnn x nn | op5xy0 x y und | op9xy0 x y und =>
    exact .inl ((Host.Outcome.next.injEq _ _ ▸ h) ▸ s.sameControl_skipIf _)
  | op6xnn x nn | op7xnn x nn | op8xy0 x y | op8xy1 x y | op8xy2 x y | op8xy3 x y | opCxnn x nn | opFx07 x =>
    exact .inl ((Host.Outcome.next.injEq _ _ ▸ h) ▸ s.sameControl_setReg _ _)
  | op8xy4 x y | op8xy5 x y | op8xy6 x y | op8xy7 x y | op8xyE x y =>
    exact .inl ((Host.Outcome.next.injEq _ _ ▸ h) ▸ s.sameControl_setResultAndFlag _ _ _)
  | op00E0 und | op1nnn nnn | opAnnn nnn | opBnnn nnn | opFx15 x | opFx18 x | opFx1E x | opFx29 x =>
    exact .inl ((Host.Outcome.next.injEq _ _ ▸ h) ▸ ⟨rfl, rfl, rfl, rfl, rfl, rfl, rfl, rfl⟩)

/-- A cycle in which the word fetched has a handler. -/
theorem step_run {s t : State} {i : Instr} (hr : s.run = .running) (hp : s.pc.toNat ≤ 0x0FFE)
    (hd : decode (wordOfBytes (s.mem.read s.pc.toNat) (s.mem.read (s.pc.toNat + 1))) = .ok i)
    (ht : exec i s.advance = .next t) :
    step s = .next (t.endCycle (wordOfBytes (s.mem.read s.pc.toNat) (s.mem.read (s.pc.toNat + 1)))) := by
  simp only [step, hr, State.fetch_ok hp, hd, ht]

/-- The end of a cycle that did not fail. -/
theorem State.endCycle_running {s : State} (w : Word) (h : s.run = .running) : s.endCycle w = s.finish w none := by
  simp only [State.endCycle, h]

/-- The end of a cycle that failed. -/
theorem State.endCycle_faulted {s : State} (w : Word) (h : s.run = .faulted) : s.endCycle w = s.abandon := by
  simp only [State.endCycle, h]

/-- The ways a cycle request can go (40_cycle.md R121, R122, R125, R127, R128). -/
theorem step_cases {s t : State} (h : step s = .next t) :
    (s.run = .faulted ∧ t = s) ∨
    (s.run = .running ∧ 0x0FFE < s.pc.toNat ∧
      t = (s.raise s.pc (.boundsError (BitVec.ofNat 16 (max s.pc.toNat 0x1000)))).abandon) ∨
    (s.run = .running ∧ s.pc.toNat ≤ 0x0FFE ∧ ∃ w r, s.fetch = .ok w ∧ decode w = .error r ∧
      t = s.advance.finish w (some w)) ∨
    (s.run = .running ∧ s.pc.toNat ≤ 0x0FFE ∧ ∃ w i u, s.fetch = .ok w ∧ decode w = .ok i ∧
      exec i s.advance = .next u ∧ t = u.endCycle w) := by
  unfold step at h
  cases hr : s.run with
  | faulted =>
    simp only [hr, Host.Outcome.next.injEq] at h
    exact .inl ⟨rfl, h.symm⟩
  | running =>
    simp only [hr] at h
    by_cases hp : s.pc.toNat ≤ 0x0FFE
    · have hf := State.fetch_ok hp
      rw [hf] at h
      simp only at h
      cases hd : decode (wordOfBytes (s.mem.read s.pc.toNat) (s.mem.read (s.pc.toNat + 1))) with
      | error r =>
        simp only [hd, Host.Outcome.next.injEq] at h
        exact .inr (.inr (.inl ⟨rfl, hp, _, r, hf, hd, h.symm⟩))
      | ok i =>
        obtain ⟨u, hu⟩ := exec_next i s.advance
        simp only [hd, hu, Host.Outcome.next.injEq] at h
        exact .inr (.inr (.inr ⟨rfl, hp, _, i, u, hf, hd, hu, h.symm⟩))
    · rw [State.fetch_error (by omega)] at h
      simp only [Host.Outcome.next.injEq] at h
      exact .inr (.inl ⟨rfl, by omega, h.symm⟩)

end Sys2Proof.Machine
end

