-- ==== Sys2Proof/Laws/PerInstr.lean ====
section
/-!
SUPPORT. Statements made for every instruction, one lemma per constructor. RoundTrip: decoding an instruction's word
gives the instruction back, with every operand and every undecoded digit at every value. FitsRow: an instruction's word
passes the decoder's test of its own row in the opcode map (30_encoding.md R106).
-/

namespace Sys2Proof.Laws.RoundTrip

/-- Decoding the encoded instruction gives it back. -/
def Statement (i : Instr) : Prop := decode (encode i) = .ok i

theorem op00E0 (und : BitVec 8) : Statement (.op00E0 und) := by
  simp [Statement, decode, encode, decodeFamily0]

theorem op00EE (und : BitVec 8) : Statement (.op00EE und) := by
  simp [Statement, decode, encode, decodeFamily0]

theorem op1nnn (nnn : BitVec 12) : Statement (.op1nnn nnn) := by
  simp [Statement, decode, encode]

theorem op2nnn (nnn : BitVec 12) : Statement (.op2nnn nnn) := by
  simp [Statement, decode, encode]

theorem op3xnn (x : RegIdx) (nn : Byte) : Statement (.op3xnn x nn) := by
  simp [Statement, decode, encode]

theorem op4xnn (x : RegIdx) (nn : Byte) : Statement (.op4xnn x nn) := by
  simp [Statement, decode, encode]

theorem op5xy0 (x y : RegIdx) (und : BitVec 4) : Statement (.op5xy0 x y und) := by
  simp [Statement, decode, encode]

theorem op6xnn (x : RegIdx) (nn : Byte) : Statement (.op6xnn x nn) := by
  simp [Statement, decode, encode]

theorem op7xnn (x : RegIdx) (nn : Byte) : Statement (.op7xnn x nn) := by
  simp [Statement, decode, encode]

theorem op8xy0 (x y : RegIdx) : Statement (.op8xy0 x y) := by
  simp [Statement, decode, encode, decodeFamily8]

theorem op8xy1 (x y : RegIdx) : Statement (.op8xy1 x y) := by
  simp [Statement, decode, encode, decodeFamily8]

theorem op8xy2 (x y : RegIdx) : Statement (.op8xy2 x y) := by
  simp [Statement, decode, encode, decodeFamily8]

theorem op8xy3 (x y : RegIdx) : Statement (.op8xy3 x y) := by
  simp [Statement, decode, encode, decodeFamily8]

theorem op8xy4 (x y : RegIdx) : Statement (.op8xy4 x y) := by
  simp [Statement, decode, encode, decodeFamily8]

theorem op8xy5 (x y : RegIdx) : Statement (.op8xy5 x y) := by
  simp [Statement, decode, encode, decodeFamily8]

theorem op8xy6 (x y : RegIdx) : Statement (.op8xy6 x y) := by
  simp [Statement, decode, encode, decodeFamily8]

theorem op8xy7 (x y : RegIdx) : Statement (.op8xy7 x y) := by
  simp [Statement, decode, encode, decodeFamily8]

theorem op8xyE (x y : RegIdx) : Statement (.op8xyE x y) := by
  simp [Statement, decode, encode, decodeFamily8]

theorem op9xy0 (x y : RegIdx) (und : BitVec 4) : Statement (.op9xy0 x y und) := by
  simp [Statement, decode, encode]

theorem opAnnn (nnn : BitVec 12) : Statement (.opAnnn nnn) := by
  simp [Statement, decode, encode]

theorem opBnnn (nnn : BitVec 12) : Statement (.opBnnn nnn) := by
  simp [Statement, decode, encode]

theorem opCxnn (x : RegIdx) (nn : Byte) : Statement (.opCxnn x nn) := by
  simp [Statement, decode, encode]

theorem opDxyn (x y : RegIdx) (n : Fin 16) : Statement (.opDxyn x y n) := by
  simp [Statement, decode, encode]

theorem opEx9E (x : RegIdx) (und : BitVec 4) : Statement (.opEx9E x und) := by
  simp [Statement, decode, encode, decodeFamilyE]

theorem opExA1 (x : RegIdx) (und : BitVec 4) : Statement (.opExA1 x und) := by
  simp [Statement, decode, encode, decodeFamilyE]

theorem opFx07 (x : RegIdx) : Statement (.opFx07 x) := by
  simp [Statement, decode, encode, decodeFamilyF]

theorem opFx0A (x : RegIdx) : Statement (.opFx0A x) := by
  simp [Statement, decode, encode, decodeFamilyF]

theorem opFx15 (x : RegIdx) : Statement (.opFx15 x) := by
  simp [Statement, decode, encode, decodeFamilyF]

theorem opFx18 (x : RegIdx) : Statement (.opFx18 x) := by
  simp [Statement, decode, encode, decodeFamilyF]

theorem opFx1E (x : RegIdx) : Statement (.opFx1E x) := by
  simp [Statement, decode, encode, decodeFamilyF]

theorem opFx29 (x : RegIdx) : Statement (.opFx29 x) := by
  simp [Statement, decode, encode, decodeFamilyF]

theorem opFx33 (x : RegIdx) : Statement (.opFx33 x) := by
  simp [Statement, decode, encode, decodeFamilyF]

theorem opFx55 (x : RegIdx) : Statement (.opFx55 x) := by
  simp [Statement, decode, encode, decodeFamilyF]

theorem opFx65 (x : RegIdx) : Statement (.opFx65 x) := by
  simp [Statement, decode, encode, decodeFamilyF]

end Sys2Proof.Laws.RoundTrip

namespace Sys2Proof.Laws.FitsRow

/-- The encoded instruction is accepted by its own row. -/
def Statement (i : Instr) : Prop := i.row.accepts (encode i) = true

theorem of_op {w : Word} {k : BitVec 4} (h : opOf w = k) : (w &&& 0xF000#16 == (k ++ 0x000#12 : Word)) = true :=
  beq_iff_eq.2 ((accepts_op w k).2 h)

theorem of_op_low {w : Word} {k l : BitVec 4} (h : opOf w = k) (h' : lowNibbleOf w = l) :
    (w &&& 0xF00F#16 == (k ++ 0x00#8 ++ l : Word)) = true :=
  beq_iff_eq.2 ((accepts_op_low w k l).2 ⟨h, h'⟩)

theorem of_op_nn {w : Word} {k : BitVec 4} {l : Byte} (h : opOf w = k) (h' : nnOf w = l) :
    (w &&& 0xF0FF#16 == (k ++ 0x0#4 ++ l : Word)) = true :=
  beq_iff_eq.2 ((accepts_op_nn w k l).2 ⟨h, h'⟩)

theorem op00E0 (und : BitVec 8) : Statement (.op00E0 und) :=
  of_op_low (opOf_z _ _ _) (lowNibbleOf_z _ _ _)

theorem op00EE (und : BitVec 8) : Statement (.op00EE und) :=
  of_op_low (opOf_z _ _ _) (lowNibbleOf_z _ _ _)

theorem op1nnn (nnn : BitVec 12) : Statement (.op1nnn nnn) :=
  of_op (opOf_nnn _ _)

theorem op2nnn (nnn : BitVec 12) : Statement (.op2nnn nnn) :=
  of_op (opOf_nnn _ _)

theorem op3xnn (x : RegIdx) (nn : Byte) : Statement (.op3xnn x nn) :=
  of_op (opOf_xnn _ _ _)

theorem op4xnn (x : RegIdx) (nn : Byte) : Statement (.op4xnn x nn) :=
  of_op (opOf_xnn _ _ _)

theorem op5xy0 (x y : RegIdx) (und : BitVec 4) : Statement (.op5xy0 x y und) :=
  of_op (opOf_xyn _ _ _ _)

theorem op6xnn (x : RegIdx) (nn : Byte) : Statement (.op6xnn x nn) :=
  of_op (opOf_xnn _ _ _)

theorem op7xnn (x : RegIdx) (nn : Byte) : Statement (.op7xnn x nn) :=
  of_op (opOf_xnn _ _ _)

theorem op8xy0 (x y : RegIdx) : Statement (.op8xy0 x y) :=
  of_op_low (opOf_xyn _ _ _ _) (lowNibbleOf_xyn _ _ _ _)

theorem op8xy1 (x y : RegIdx) : Statement (.op8xy1 x y) :=
  of_op_low (opOf_xyn _ _ _ _) (lowNibbleOf_xyn _ _ _ _)

theorem op8xy2 (x y : RegIdx) : Statement (.op8xy2 x y) :=
  of_op_low (opOf_xyn _ _ _ _) (lowNibbleOf_xyn _ _ _ _)

theorem op8xy3 (x y : RegIdx) : Statement (.op8xy3 x y) :=
  of_op_low (opOf_xyn _ _ _ _) (lowNibbleOf_xyn _ _ _ _)

theorem op8xy4 (x y : RegIdx) : Statement (.op8xy4 x y) :=
  of_op_low (opOf_xyn _ _ _ _) (lowNibbleOf_xyn _ _ _ _)

theorem op8xy5 (x y : RegIdx) : Statement (.op8xy5 x y) :=
  of_op_low (opOf_xyn _ _ _ _) (lowNibbleOf_xyn _ _ _ _)

theorem op8xy6 (x y : RegIdx) : Statement (.op8xy6 x y) :=
  of_op_low (opOf_xyn _ _ _ _) (lowNibbleOf_xyn _ _ _ _)

theorem op8xy7 (x y : RegIdx) : Statement (.op8xy7 x y) :=
  of_op_low (opOf_xyn _ _ _ _) (lowNibbleOf_xyn _ _ _ _)

theorem op8xyE (x y : RegIdx) : Statement (.op8xyE x y) :=
  of_op_low (opOf_xyn _ _ _ _) (lowNibbleOf_xyn _ _ _ _)

theorem op9xy0 (x y : RegIdx) (und : BitVec 4) : Statement (.op9xy0 x y und) :=
  of_op (opOf_xyn _ _ _ _)

theorem opAnnn (nnn : BitVec 12) : Statement (.opAnnn nnn) :=
  of_op (opOf_nnn _ _)

theorem opBnnn (nnn : BitVec 12) : Statement (.opBnnn nnn) :=
  of_op (opOf_nnn _ _)

theorem opCxnn (x : RegIdx) (nn : Byte) : Statement (.opCxnn x nn) :=
  of_op (opOf_xnn _ _ _)

theorem opDxyn (x y : RegIdx) (n : Fin 16) : Statement (.opDxyn x y n) :=
  of_op (opOf_xyn _ _ _ _)

theorem opEx9E (x : RegIdx) (und : BitVec 4) : Statement (.opEx9E x und) :=
  of_op_low (opOf_xyn _ _ _ _) (lowNibbleOf_xyn _ _ _ _)

theorem opExA1 (x : RegIdx) (und : BitVec 4) : Statement (.opExA1 x und) :=
  of_op_low (opOf_xyn _ _ _ _) (lowNibbleOf_xyn _ _ _ _)

theorem opFx07 (x : RegIdx) : Statement (.opFx07 x) :=
  of_op_nn (opOf_xnn _ _ _) (nnOf_xnn _ _ _)

theorem opFx0A (x : RegIdx) : Statement (.opFx0A x) :=
  of_op_nn (opOf_xnn _ _ _) (nnOf_xnn _ _ _)

theorem opFx15 (x : RegIdx) : Statement (.opFx15 x) :=
  of_op_nn (opOf_xnn _ _ _) (nnOf_xnn _ _ _)

theorem opFx18 (x : RegIdx) : Statement (.opFx18 x) :=
  of_op_nn (opOf_xnn _ _ _) (nnOf_xnn _ _ _)

theorem opFx1E (x : RegIdx) : Statement (.opFx1E x) :=
  of_op_nn (opOf_xnn _ _ _) (nnOf_xnn _ _ _)

theorem opFx29 (x : RegIdx) : Statement (.opFx29 x) :=
  of_op_nn (opOf_xnn _ _ _) (nnOf_xnn _ _ _)

theorem opFx33 (x : RegIdx) : Statement (.opFx33 x) :=
  of_op_nn (opOf_xnn _ _ _) (nnOf_xnn _ _ _)

theorem opFx55 (x : RegIdx) : Statement (.opFx55 x) :=
  of_op_nn (opOf_xnn _ _ _) (nnOf_xnn _ _ _)

theorem opFx65 (x : RegIdx) : Statement (.opFx65 x) :=
  of_op_nn (opOf_xnn _ _ _) (nnOf_xnn _ _ _)

end Sys2Proof.Laws.FitsRow
end

