-- ==== Sys2Proof/Tests/Slice0.lean ====
section
/-!
SUPPORT. The model's own tests: well-formedness refuses each ill-formed term; every constructor's word, written out bit
by bit from 30_encoding.md R92 and R106, decodes to it; one cycle each of vectors of spec/95_test_vectors.md, named in
the comments, whose expected values are the spec's; and for every statement with hypotheses, states and operands that
meet them.
-/

namespace Sys2Proof.Tests

open Sys2Proof.Machine

/-! ## Helpers -/

/-- No key down, `RND` = 0: the inputs the vectors assume. -/
def quiet : CycleInput := ⟨Vector.replicate 16 false, 0, 0x00#8⟩

/-- These keys down, `k` the one the environment reports if it is down, and this `RND`. -/
def keysDown (down : List Key) (k : Key) (rnd : Byte) : CycleInput :=
  ⟨Vector.ofFn fun j => down.contains j, k, rnd⟩

/-- Reset, the word at `PC`, and these inputs in the next cycle. -/
def startWith (w : Word) (inp : CycleInput) : State := (State.reset.withFetchWord 16 w.toNat).present inp

/-- Reset, the word at `PC`, and quiet inputs in the next cycle. -/
def start (w : Word) : State := startWith w quiet

/-- Bytes in memory, for a start state. -/
def poke (s : State) (a : Nat) (bytes : List Byte) : State := { s with mem := s.mem.writeBytes a bytes }

/-- A pixel set, for a start state. -/
def lit (s : State) (px py : Nat) : State := { s with fb := s.fb.setPixel px py true }

/-- Reset with `I` at an address. -/
def atI (i : Word) : State := { State.reset with i := i }

/-- What is seen of the next state. -/
def seen {α : Type} (o : Host.Outcome State Fault Refusal) (f : State → α) : Option α :=
  match o with
  | .next t => some (f t)
  | .fault _ => none
  | .refused _ => none

theorem exists_of_seen {α : Type} {o : Host.Outcome State Fault Refusal} {f : State → α} {a : α}
    (h : seen o f = some a) : ∃ t, o = .next t ∧ f t = a := by
  cases o with
  | next t => exact ⟨t, rfl, by simpa [seen] using h⟩
  | fault r => simp [seen] at h
  | refused r => simp [seen] at h

/-- The fault report, with `PC`. -/
def report (t : State) : RunState × BitVec 3 × Word × Word × Word :=
  (t.run, t.faultCause, t.faultPc, t.faultInfo, t.pc)

/-! ## Well-formedness: an ill-formed term for each check (30_encoding.md R101) -/

theorem test_wf_refuses_alias_00E0 : Instr.wellFormed (.op00E0 0x00#8) = false := by decide
theorem test_wf_refuses_alias_00EE : Instr.wellFormed (.op00EE 0x12#8) = false := by decide
theorem test_wf_refuses_alias_5xy0 : Instr.wellFormed (.op5xy0 1 2 0x3#4) = false := by decide
theorem test_wf_refuses_alias_9xy0 : Instr.wellFormed (.op9xy0 1 2 0xF#4) = false := by decide
theorem test_wf_refuses_alias_Ex9E : Instr.wellFormed (.opEx9E 2 0xA#4) = false := by decide
theorem test_wf_refuses_alias_ExA1 : Instr.wellFormed (.opExA1 2 0x9#4) = false := by decide

theorem test_wf_accepts_canonical : Instr.wellFormed (.op00E0 0x0E#8) = true ∧ Instr.wellFormed (.op00EE 0x0E#8) = true ∧
    Instr.wellFormed (.op5xy0 1 2 0x0#4) = true ∧ Instr.wellFormed (.op9xy0 1 2 0x0#4) = true ∧
    Instr.wellFormed (.opEx9E 2 0x9#4) = true ∧ Instr.wellFormed (.opExA1 2 0xA#4) = true ∧
    Instr.wellFormed (.opDxyn 15 15 15) = true := by decide

/-! ## Decoding: one word of each row, its bits written out; then aliases (R101) and rejections (R100) -/

theorem test_decode_00E0 : decodeTableWord 16 0b0000_0000_1110_0000 = some (.op00E0 0x0E#8) := by decide
theorem test_decode_00EE : decodeTableWord 16 0b0000_0000_1110_1110 = some (.op00EE 0x0E#8) := by decide
theorem test_decode_1nnn : decodeTableWord 16 0b0001_1010_1011_1100 = some (.op1nnn 0xABC#12) := by decide
theorem test_decode_2nnn : decodeTableWord 16 0b0010_0011_0000_0001 = some (.op2nnn 0x301#12) := by decide
theorem test_decode_3xnn : decodeTableWord 16 0b0011_0011_0100_0101 = some (.op3xnn 3 0x45#8) := by decide
theorem test_decode_4xnn : decodeTableWord 16 0b0100_1111_1000_0001 = some (.op4xnn 15 0x81#8) := by decide
theorem test_decode_5xy0 : decodeTableWord 16 0b0101_0001_0010_0000 = some (.op5xy0 1 2 0x0#4) := by decide
theorem test_decode_6xnn : decodeTableWord 16 0b0110_1010_0111_1111 = some (.op6xnn 10 0x7F#8) := by decide
theorem test_decode_7xnn : decodeTableWord 16 0b0111_0000_1111_1110 = some (.op7xnn 0 0xFE#8) := by decide
theorem test_decode_8xy0 : decodeTableWord 16 0b1000_0001_0010_0000 = some (.op8xy0 1 2) := by decide
theorem test_decode_8xy1 : decodeTableWord 16 0b1000_0010_0001_0001 = some (.op8xy1 2 1) := by decide
theorem test_decode_8xy2 : decodeTableWord 16 0b1000_1100_0011_0010 = some (.op8xy2 12 3) := by decide
theorem test_decode_8xy3 : decodeTableWord 16 0b1000_0101_1010_0011 = some (.op8xy3 5 10) := by decide
theorem test_decode_8xy4 : decodeTableWord 16 0b1000_1111_0001_0100 = some (.op8xy4 15 1) := by decide
theorem test_decode_8xy5 : decodeTableWord 16 0b1000_0001_1111_0101 = some (.op8xy5 1 15) := by decide
theorem test_decode_8xy6 : decodeTableWord 16 0b1000_0111_1000_0110 = some (.op8xy6 7 8) := by decide
theorem test_decode_8xy7 : decodeTableWord 16 0b1000_1011_0100_0111 = some (.op8xy7 11 4) := by decide
theorem test_decode_8xyE : decodeTableWord 16 0b1000_1001_0110_1110 = some (.op8xyE 9 6) := by decide
theorem test_decode_9xy0 : decodeTableWord 16 0b1001_1101_1110_0000 = some (.op9xy0 13 14 0x0#4) := by decide
theorem test_decode_Annn : decodeTableWord 16 0b1010_0001_0010_0011 = some (.opAnnn 0x123#12) := by decide
theorem test_decode_Bnnn : decodeTableWord 16 0b1011_1111_1111_0000 = some (.opBnnn 0xFF0#12) := by decide
theorem test_decode_Cxnn : decodeTableWord 16 0b1100_0011_0000_1111 = some (.opCxnn 3 0x0F#8) := by decide
theorem test_decode_Dxyn : decodeTableWord 16 0b1101_0001_0010_1111 = some (.opDxyn 1 2 15) := by decide
theorem test_decode_Ex9E : decodeTableWord 16 0b1110_0010_1001_1110 = some (.opEx9E 2 0x9#4) := by decide
theorem test_decode_ExA1 : decodeTableWord 16 0b1110_1100_1010_0001 = some (.opExA1 12 0xA#4) := by decide
theorem test_decode_Fx07 : decodeTableWord 16 0b1111_0001_0000_0111 = some (.opFx07 1) := by decide
theorem test_decode_Fx0A : decodeTableWord 16 0b1111_0011_0000_1010 = some (.opFx0A 3) := by decide
theorem test_decode_Fx15 : decodeTableWord 16 0b1111_0000_0001_0101 = some (.opFx15 0) := by decide
theorem test_decode_Fx18 : decodeTableWord 16 0b1111_1000_0001_1000 = some (.opFx18 8) := by decide
theorem test_decode_Fx1E : decodeTableWord 16 0b1111_0010_0001_1110 = some (.opFx1E 2) := by decide
theorem test_decode_Fx29 : decodeTableWord 16 0b1111_1010_0010_1001 = some (.opFx29 10) := by decide
theorem test_decode_Fx33 : decodeTableWord 16 0b1111_0100_0011_0011 = some (.opFx33 4) := by decide
theorem test_decode_Fx55 : decodeTableWord 16 0b1111_1111_0101_0101 = some (.opFx55 15) := by decide
theorem test_decode_Fx65 : decodeTableWord 16 0b1111_0110_0110_0101 = some (.opFx65 6) := by decide

theorem test_decode_alias_of_00E0 : decodeTableWord 16 0b0000_0000_0000_0000 = some (.op00E0 0x00#8) := by decide
theorem test_decode_alias_of_00EE : decodeTableWord 16 0b0000_0001_0010_1110 = some (.op00EE 0x12#8) := by decide
theorem test_decode_alias_of_5xy0 : decodeTableWord 16 0b0101_0001_0010_0011 = some (.op5xy0 1 2 0x3#4) := by decide
theorem test_decode_alias_of_9xy0 : decodeTableWord 16 0b1001_0001_0010_1111 = some (.op9xy0 1 2 0xF#4) := by decide
theorem test_decode_alias_of_Ex9E : decodeTableWord 16 0b1110_0010_1111_1110 = some (.opEx9E 2 0xF#4) := by decide
theorem test_decode_alias_of_ExA1 : decodeTableWord 16 0b1110_0010_1001_0001 = some (.opExA1 2 0x9#4) := by decide

theorem test_decode_rejects_family0 : decodeTableWord 16 0b0000_0000_1110_0001 = none := by decide
theorem test_decode_rejects_family8 : decodeTableWord 16 0b1000_0001_0010_1111 = none := by decide
theorem test_decode_rejects_familyE : decodeTableWord 16 0b1110_0010_1001_1111 = none := by decide
theorem test_decode_rejects_familyF : decodeTableWord 16 0b1111_0000_0111_0101 = none := by decide

theorem test_decode_rejects_by_name : decode 0xF1FF#16 = .error (.noHandler 0xF1FF#16) := rfl

theorem test_decode_one_byte_truncated : decodeBytes [0x12#8] = .error .truncated := rfl

/-- The counts of 95_test_vectors.md for family 0xF: 9 of the 256 low bytes have a handler, for every `x`. -/
theorem test_decode_familyF_count :
    ((List.range 256).filter fun k => (decodeTableWord 16 (0xF300 + k)).isSome).length = 9 := by decide

/-! ## One cycle each, on the vectors of 95_test_vectors.md -/

/-- G1. -/
theorem test_00E0_clears :
    seen (step (lit ((start 0x00E0#16).setReg 15 0x01#8) 63 31))
      (fun t => (t.fb.pixel 63 31, t.reg 15, t.pc)) =
    some (false, 0x01#8, 0x0202#16) := by decide

/-- G2. -/
theorem test_00E0_alias_0000 :
    seen (step (lit (start 0x0000#16) 5 5))
      (fun t => (t.fb.pixel 5 5, t.warn, t.pc)) =
    some (false, none, 0x0202#16) := by decide

/-- T1. -/
theorem test_00EE_returns :
    seen (step ({ start 0x00EE#16 with sp := 1, stack := State.reset.stack.set 0 0x0ABD#16 }))
      (fun t => (t.pc, t.sp, t.stack[0])) =
    some (0x0ABD#16, 0, 0x0ABD#16) := by decide

/-- T2. -/
theorem test_00EE_empty_stack :
    seen (step (start 0x00EE#16))
      (fun t => report t) =
    some (.faulted, 3#3, 0x0200#16, 0x0000#16, 0x0200#16) := by decide

/-- T6. -/
theorem test_1nnn_last_byte :
    seen (step (start 0x1FFF#16))
      (fun t => (t.pc, t.run)) =
    some (0x0FFF#16, .running) := by decide

/-- T11. -/
theorem test_2nnn_fills_stack :
    seen (step ({ start 0x2300#16 with sp := 15 }))
      (fun t => (t.pc, t.sp, t.stack[15])) =
    some (0x0300#16, 16, 0x0202#16) := by decide

/-- T12. -/
theorem test_2nnn_full_stack :
    seen (step ({ start 0x2300#16 with sp := 16 }))
      (fun t => report t) =
    some (.faulted, 3#3, 0x0200#16, 0x0010#16, 0x0200#16) := by decide

/-- T13. -/
theorem test_3xnn_skips :
    seen (step ((start 0x3344#16).setReg 3 0x44#8))
      (fun t => t.pc) =
    some (0x0204#16) := by decide

/-- T14. -/
theorem test_3xnn_goes_on :
    seen (step ((start 0x3345#16).setReg 3 0x44#8))
      (fun t => t.pc) =
    some (0x0202#16) := by decide

/-- T17. -/
theorem test_4xnn_skips :
    seen (step ((start 0x4345#16).setReg 3 0x44#8))
      (fun t => t.pc) =
    some (0x0204#16) := by decide

/-- T16. -/
theorem test_4xnn_goes_on :
    seen (step ((start 0x4344#16).setReg 3 0x44#8))
      (fun t => t.pc) =
    some (0x0202#16) := by decide

/-- T20. -/
theorem test_5xy0_alias_skips :
    seen (step (((start 0x5123#16).setReg 1 0x07#8).setReg 2 0x07#8))
      (fun t => t.pc) =
    some (0x0204#16) := by decide

/-- T19. -/
theorem test_5xy0_goes_on :
    seen (step (((start 0x5120#16).setReg 1 0x07#8).setReg 2 0x08#8))
      (fun t => t.pc) =
    some (0x0202#16) := by decide

/-- A2. -/
theorem test_6xnn_writes_vf :
    seen (step (start 0x6F55#16))
      (fun t => (t.reg 15, t.pc)) =
    some (0x55#8, 0x0202#16) := by decide

/-- A3. -/
theorem test_7xnn_wraps_without_flag :
    seen (step ((start 0x7002#16).setReg 0 0xFF#8))
      (fun t => (t.reg 0, t.reg 15)) =
    some (0x01#8, 0x00#8) := by decide

/-- A5. -/
theorem test_7xnn_on_vf :
    seen (step ((start 0x7FFF#16).setReg 15 0x01#8))
      (fun t => t.reg 15) =
    some (0x00#8) := by decide

/-- A7. -/
theorem test_8xy0_copies :
    seen (step ((start 0x8120#16).setReg 2 0x3C#8))
      (fun t => (t.reg 1, t.reg 2)) =
    some (0x3C#8, 0x3C#8) := by decide

/-- A8. -/
theorem test_8xy1_or :
    seen (step ((((start 0x8121#16).setReg 1 0xF0#8).setReg 2 0x0F#8).setReg 15 0x01#8))
      (fun t => (t.reg 1, t.reg 15)) =
    some (0xFF#8, 0x01#8) := by decide

/-- A9. -/
theorem test_8xy2_and :
    seen (step ((((start 0x8122#16).setReg 1 0xF0#8).setReg 2 0x3C#8).setReg 15 0x01#8))
      (fun t => (t.reg 1, t.reg 15)) =
    some (0x30#8, 0x01#8) := by decide

/-- A10. -/
theorem test_8xy3_xor :
    seen (step ((((start 0x8123#16).setReg 1 0xF0#8).setReg 2 0x3C#8).setReg 15 0x01#8))
      (fun t => (t.reg 1, t.reg 15)) =
    some (0xCC#8, 0x01#8) := by decide

/-- A16. -/
theorem test_8xy4_sum_lost_in_vf :
    seen (step (((start 0x8F14#16).setReg 15 0x10#8).setReg 1 0x01#8))
      (fun t => t.reg 15) =
    some (0x00#8) := by decide

/-- A17. -/
theorem test_8xy4_old_vf_is_addend :
    seen (step (((start 0x81F4#16).setReg 1 0x10#8).setReg 15 0xF0#8))
      (fun t => (t.reg 1, t.reg 15)) =
    some (0x00#8, 0x01#8) := by decide

/-- A20. -/
theorem test_8xy5_equal_no_borrow :
    seen (step (((start 0x8125#16).setReg 1 0x07#8).setReg 2 0x07#8))
      (fun t => (t.reg 1, t.reg 15)) =
    some (0x00#8, 0x01#8) := by decide

/-- A23. -/
theorem test_8xy5_old_vf_is_subtrahend :
    seen (step (((start 0x81F5#16).setReg 1 0x10#8).setReg 15 0x20#8))
      (fun t => (t.reg 1, t.reg 15)) =
    some (0xF0#8, 0x00#8) := by decide

/-- A25. -/
theorem test_8xy6_ignores_y :
    seen (step ((((start 0x8126#16).setReg 1 0x04#8).setReg 2 0xFF#8).setReg 15 0x01#8))
      (fun t => (t.reg 1, t.reg 2, t.reg 15)) =
    some (0x02#8, 0xFF#8, 0x00#8) := by decide

/-- A26. -/
theorem test_8xy6_flag_last :
    seen (step ((start 0x8F06#16).setReg 15 0x03#8))
      (fun t => t.reg 15) =
    some (0x01#8) := by decide

/-- A29. -/
theorem test_8xy7_borrow :
    seen (step ((((start 0x8127#16).setReg 1 0x02#8).setReg 2 0x01#8).setReg 15 0x01#8))
      (fun t => (t.reg 1, t.reg 15)) =
    some (0xFF#8, 0x00#8) := by decide

/-- A30. -/
theorem test_8xy7_on_vf :
    seen (step (((start 0x8F17#16).setReg 15 0x03#8).setReg 1 0x05#8))
      (fun t => t.reg 15) =
    some (0x01#8) := by decide

/-- A33. -/
theorem test_8xyE_ignores_y :
    seen (step ((((start 0x812E#16).setReg 1 0x40#8).setReg 2 0xFF#8).setReg 15 0x01#8))
      (fun t => (t.reg 1, t.reg 2, t.reg 15)) =
    some (0x80#8, 0xFF#8, 0x00#8) := by decide

/-- A34. -/
theorem test_8xyE_flag_last :
    seen (step ((start 0x8F0E#16).setReg 15 0x80#8))
      (fun t => t.reg 15) =
    some (0x01#8) := by decide

/-- T24. -/
theorem test_9xy0_alias_skips :
    seen (step (((start 0x912F#16).setReg 1 0x07#8).setReg 2 0x08#8))
      (fun t => t.pc) =
    some (0x0204#16) := by decide

/-- T23. -/
theorem test_9xy0_goes_on :
    seen (step (((start 0x9120#16).setReg 1 0x07#8).setReg 2 0x07#8))
      (fun t => t.pc) =
    some (0x0202#16) := by decide

/-- M1. -/
theorem test_Annn_clears_high_bits :
    seen (step ({ start 0xA123#16 with i := 0xFFFF#16 }))
      (fun t => (t.i, t.pc)) =
    some (0x0123#16, 0x0202#16) := by decide

/-- T27. -/
theorem test_Bnnn_not_masked :
    seen (step ((start 0xBFFF#16).setReg 0 0xFF#8))
      (fun t => (t.pc, t.run)) =
    some (0x10FE#16, .running) := by decide

/-- A36. -/
theorem test_Cxnn_masks :
    seen (step ((startWith 0xC30F#16 (keysDown [] 0 0xA5#8)).setReg 3 0xFF#8))
      (fun t => t.reg 3) =
    some (0x05#8) := by decide

/-- G8. -/
theorem test_Dxyn_wraps_at_the_corner :
    seen (step (poke { ((start 0xD012#16).setReg 0 0x3E#8).setReg 1 0x1F#8 with i := 0x020E#16 } 0x20E [0xC3#8, 0x81#8]))
      (fun t => ([t.fb.pixel 62 31, t.fb.pixel 4 31, t.fb.pixel 5 0, t.fb.pixel 4 0, t.fb.pixel 0 31], t.reg 15)) =
    some ([true, true, true, false, false], 0x00#8) := by decide

/-- G6. -/
theorem test_Dxyn_collides :
    seen (step (poke { lit (start 0xD011#16) 0 0 with i := 0x0300#16 } 0x300 [0x81#8]))
      (fun t => (t.fb.pixel 0 0, t.fb.pixel 7 0, t.reg 15)) =
    some (false, true, 0x01#8) := by decide

/-- K1. -/
theorem test_Ex9E_skips :
    seen (step ((startWith 0xE29E#16 (keysDown [5] 5 0x00#8)).setReg 2 0x05#8))
      (fun t => t.pc) =
    some (0x0204#16) := by decide

/-- K5. -/
theorem test_Ex9E_key_number_16 :
    seen (step ((startWith 0xE29E#16 (keysDown [0] 0 0x00#8)).setReg 2 0x10#8))
      (fun t => report t) =
    some (.faulted, 2#3, 0x0200#16, 0x0010#16, 0x0200#16) := by decide

/-- K4. -/
theorem test_ExA1_goes_on :
    seen (step ((startWith 0xE2A1#16 (keysDown [5] 5 0x00#8)).setReg 2 0x05#8))
      (fun t => t.pc) =
    some (0x0202#16) := by decide

/-- K8. -/
theorem test_ExA1_alias_skips :
    seen (step ((start 0xE291#16).setReg 2 0x05#8))
      (fun t => t.pc) =
    some (0x0204#16) := by decide

/-- K12. -/
theorem test_Fx07_reads_before_the_tick :
    seen (step ({ start 0xF107#16 with dt := 2#8 }))
      (fun t => (t.reg 1, t.dt)) =
    some (0x02#8, 0x01#8) := by decide

/-- K9. -/
theorem test_Fx0A_stalls :
    seen (step ({ (start 0xF30A#16).setReg 3 0xEE#8 with dt := 5#8, st := 1#8 }))
      (fun t => (t.pc, t.reg 3, t.dt, t.st)) =
    some (0x0200#16, 0xEE#8, 4#8, 0#8) := by decide

/-- K11. -/
theorem test_Fx0A_takes_the_reported_key :
    seen (step (startWith 0xF30A#16 (keysDown [2, 9] 9 0x00#8)))
      (fun t => (t.pc, t.reg 3)) =
    some (0x0202#16, 0x09#8) := by decide

/-- K15. -/
theorem test_Fx15_ticks_at_once :
    seen (step ({ (start 0xF015#16).setReg 0 0x01#8 with dt := 200#8 }))
      (fun t => t.dt) =
    some (0#8) := by decide

/-- K17. -/
theorem test_Fx18_sounds :
    seen (step ((start 0xF018#16).setReg 0 0x05#8))
      (fun t => (t.st, t.tone)) =
    some (4#8, true) := by decide

/-- M4. -/
theorem test_Fx1E_wraps_without_flag :
    seen (step ({ (start 0xF21E#16).setReg 2 0x02#8 with i := 0xFFFF#16 }))
      (fun t => (t.i, t.reg 15)) =
    some (0x0001#16, 0x00#8) := by decide

/-- M9. -/
theorem test_Fx29_whole_byte :
    seen (step ((start 0xF029#16).setReg 0 0xFF#8))
      (fun t => t.i) =
    some (0x054B#16) := by decide

/-- M12. -/
theorem test_Fx33_leading_zeros :
    seen (step (poke { (start 0xF433#16).setReg 4 0x09#8 with i := 0x0300#16 } 0x300 [0xEE#8, 0xEE#8, 0xEE#8, 0xEE#8]))
      (fun t => (t.mem.readBytes 0x300 4, t.i)) =
    some ([0x00#8, 0x00#8, 0x09#8, 0xEE#8], 0x0300#16) := by decide

/-- M16. -/
theorem test_Fx33_all_or_nothing :
    seen (step ({ (start 0xF433#16).setReg 4 0xFF#8 with i := 0x0FFE#16 }))
      (fun t => (report t, t.mem.readBytes 0xFFE 2)) =
    some ((.faulted, 2#3, 0x0200#16, 0x1000#16, 0x0200#16), [0x00#8, 0x00#8]) := by decide

/-- M18. -/
theorem test_Fx55_stores_in_order :
    seen (step ({ ((start 0xF155#16).setReg 0 0x11#8).setReg 1 0x22#8 with i := 0x0400#16 }))
      (fun t => (t.mem.readBytes 0x400 3, t.i)) =
    some ([0x11#8, 0x22#8, 0x00#8], 0x0400#16) := by decide

/-- M21. -/
theorem test_Fx55_outside :
    seen (step ({ (start 0xFF55#16).setReg 0 0x01#8 with i := 0x0FF1#16 }))
      (fun t => (report t, t.mem.read 0xFF1)) =
    some ((.faulted, 2#3, 0x0200#16, 0x1000#16, 0x0200#16), 0x00#8) := by decide

/-- M22. -/
theorem test_Fx65_loads_in_order :
    seen (step (poke { (start 0xF265#16).setReg 3 0x99#8 with i := 0x0300#16 } 0x300 [0x01#8, 0x03#8, 0x07#8, 0x55#8]))
      (fun t => [t.reg 0, t.reg 1, t.reg 2, t.reg 3]) =
    some [0x01#8, 0x03#8, 0x07#8, 0x99#8] := by decide

/-- M24. -/
theorem test_Fx65_last_byte :
    seen (step (poke { start 0xF065#16 with i := 0x0FFF#16 } 0xFFF [0xAB#8]))
      (fun t => (t.reg 0, t.run)) =
    some (0xAB#8, .running) := by decide

/-- Z9. -/
theorem test_no_handler_warns :
    seen (step ({ (start 0xF1FF#16).setReg 1 0x12#8 with dt := 2#8 }))
      (fun t => (t.warn, t.ir, t.pc, t.reg 1, t.dt)) =
    some (some 0xF1FF#16, 0xF1FF#16, 0x0202#16, 0x12#8, 1#8) := by decide

/-- T7. -/
theorem test_fetch_at_0FFF :
    seen (step ({ start 0x0000#16 with pc := 0x0FFF#16 }))
      (fun t => (report t, t.ir)) =
    some ((.faulted, 2#3, 0x0FFF#16, 0x1000#16, 0x0FFF#16), 0x0000#16) := by decide

/-- T28. -/
theorem test_fetch_at_10FE :
    seen (step ({ start 0x0000#16 with pc := 0x10FE#16 }))
      (fun t => report t) =
    some (.faulted, 2#3, 0x10FE#16, 0x10FE#16, 0x10FE#16) := by decide

/-- T9. -/
theorem test_fetch_at_0FFE :
    seen (step ({ poke (start 0x0000#16) 0xFFE [0x60#8, 0x11#8] with pc := 0x0FFE#16 }))
      (fun t => (t.pc, t.reg 0, t.ir)) =
    some (0x1000#16, 0x11#8, 0x6011#16) := by decide

/-- X5: a FAULTED core ignores the request. -/
theorem test_faulted_ignores :
    seen (step { start 0x6A7F#16 with run := .faulted, dt := 5#8 }) (fun t => (t.reg 10, t.pc, t.dt, t.run)) =
      some (0x00#8, 0x0200#16, 5#8, .faulted) := by decide

/-- X1: the parts of reset the source gives. -/
theorem test_reset : State.reset.mem.wf = true ∧ State.reset.pc = 0x0200#16 ∧ State.reset.mem.read 0x1FF = 0x00#8 ∧
    State.reset.mem.read 0xFFF = 0x00#8 := by decide

/-- X2, at the small end: a ROM of two bytes. -/
theorem test_rom_load : ((State.reset.loadRom [0x12#8, 0x00#8]).1.mem.readBytes 0x1FF 4,
    (State.reset.loadRom [0x12#8, 0x00#8]).2) = ([0x00#8, 0x12#8, 0x00#8, 0x00#8], .loaded) := by decide

/-- X3: a ROM of 3585 bytes is refused. -/
theorem test_rom_too_large (rom : List Byte) (h : rom.length = 3585) :
    State.reset.loadRom rom = (State.reset, .resourceError 3585) := by
  simp [State.loadRom, Config.romMax, h]

/-! ## Witnesses: for every statement with hypotheses, inputs that meet them, one for each clause -/

/-- The word at `PC` in a start state is the one placed there. -/
theorem witness_fetched_word : wordOfBytes ((start 0x8124#16).mem.read 0x200) ((start 0x8124#16).mem.read 0x201) =
    0x8124#16 := by decide

theorem witness_EncodeOfDecodedWordIsTheWord : decode 0x8124#16 = .ok (.op8xy4 1 2) := rfl

theorem witness_SecondLevelDecodeSelectsHandlers :
    (opOf 0x0120#16 = 0x0#4 ∧ lowNibbleOf 0x0120#16 = 0x0#4) ∧ (opOf 0x00EE#16 = 0x0#4 ∧ lowNibbleOf 0x00EE#16 = 0xE#4) ∧
    (opOf 0x000F#16 = 0x0#4 ∧ lowNibbleOf 0x000F#16 ∉ [0x0#4, 0xE#4]) ∧
    ([0x0#4, 0x1#4, 0x2#4, 0x3#4, 0x4#4, 0x5#4, 0x6#4, 0x7#4, 0xE#4, 0x8#4, 0xF#4].all fun l =>
      opOf (0x812#12 ++ l) == 0x8#4 && lowNibbleOf (0x812#12 ++ l) == l) = true ∧
    (opOf 0xE19E#16 = 0xE#4 ∧ lowNibbleOf 0xE19E#16 = 0xE#4) ∧ (opOf 0xE1A1#16 = 0xE#4 ∧ lowNibbleOf 0xE1A1#16 = 0x1#4) ∧
    (opOf 0xE1A0#16 = 0xE#4 ∧ lowNibbleOf 0xE1A0#16 ∉ [0xE#4, 0x1#4]) ∧
    ([0x07#8, 0x0A#8, 0x15#8, 0x18#8, 0x1E#8, 0x29#8, 0x33#8, 0x55#8, 0x65#8, 0x00#8, 0xFF#8].all fun b =>
      opOf (0xF3#8 ++ b) == 0xF#4 && nnOf (0xF3#8 ++ b) == b) = true := by decide

/-- Two canonical instructions and an alias; the aliases are the ill-formed terms above. -/
theorem witness_AliasWordsRunAsTheCanonicalInstruction : Instr.wellFormed (.opEx9E 15 0x9#4) = true ∧
    Instr.wellFormed (.opEx9E 15 0xF#4) = false := by decide

/-- `PC` at its highest; the instruction completes. -/
theorem witness_StepRunsTheDecodedInstruction_runs :
    (∃ s : State, s = { poke (start 0x0000#16) 0xFFE [0x60#8, 0x11#8] with pc := 0x0FFE#16 } ∧ s.run = .running ∧
      s.pc.toNat ≤ 0x0FFE ∧ wordOfBytes (s.mem.read s.pc.toNat) (s.mem.read (s.pc.toNat + 1)) = 0x6011#16) ∧
    decode 0x6011#16 = .ok (.op6xnn 0 0x11#8) ∧
    ∃ t, exec (.op6xnn 0 0x11#8) (start 0x6011#16) = .next t ∧ t.run = .running :=
  ⟨⟨_, rfl, by decide⟩, rfl, exists_of_seen (f := State.run) (by decide)⟩

/-- The instruction fails: a return on an empty stack. -/
theorem witness_StepRunsTheDecodedInstruction_fails :
    (start 0x00EE#16).run = .running ∧ (start 0x00EE#16).pc.toNat ≤ 0x0FFE ∧ decode 0x00EE#16 = .ok (.op00EE 0x0E#8) ∧
    ∃ t, exec (.op00EE 0x0E#8) (start 0x00EE#16).advance = .next t ∧ t.run = .faulted :=
  ⟨by decide, by decide, rfl, exists_of_seen (f := State.run) (by decide)⟩

/-- The first address outside, the next, and the last a register can hold. -/
theorem witness_FetchOutsideMemoryIsABoundsError :
    ([0x0FFF#16, 0x1000#16, 0xFFFF#16].all fun a => decide (
      ({ State.reset with pc := a } : State).run = .running ∧ 0x0FFE < ({ State.reset with pc := a } : State).pc.toNat))
      = true := by decide

theorem witness_UnhandledWordIsANoOpWithWarning :
    (start 0xF1FF#16).run = .running ∧ (start 0xF1FF#16).pc.toNat ≤ 0x0FFE ∧
    wordOfBytes ((start 0xF1FF#16).mem.read 0x200) ((start 0xF1FF#16).mem.read 0x201) = 0xF1FF#16 ∧
    decode 0xF1FF#16 = .error (.noHandler 0xF1FF#16) :=
  ⟨by decide, by decide, by decide, rfl⟩

theorem witness_FaultedCoreIgnoresCycleRequests : ({ State.reset with run := .faulted } : State).run = .faulted := rfl

/-- One completed cycle for each clause: Fx15, Fx18, Fx07, and a word that is none of them. -/
theorem witness_TimersTickOncePerCompletedCycle :
    decode 0xF015#16 = .ok (.opFx15 0) ∧ decode 0xF018#16 = .ok (.opFx18 0) ∧ decode 0xF107#16 = .ok (.opFx07 1) ∧
    (∃ t, step { start 0x6000#16 with dt := 255#8, st := 1#8 } = .next t ∧ t.run = .running) ∧
    (∃ t, step (start 0xF015#16) = .next t ∧ t.run = .running) ∧
    (∃ t, step (start 0xF018#16) = .next t ∧ t.run = .running) ∧
    (∃ t, step (start 0xF107#16) = .next t ∧ t.run = .running) :=
  ⟨rfl, rfl, rfl, exists_of_seen (f := State.run) (by decide), exists_of_seen (f := State.run) (by decide),
    exists_of_seen (f := State.run) (by decide), exists_of_seen (f := State.run) (by decide)⟩

/-- The four values a report can hold: both ends of the stack, an address, a key number. -/
theorem witness_FailedCycleCommitsOnlyTheReport :
    (∃ t, step (start 0x00EE#16) = .next t ∧ (t.run, t.faultInfo) = (.faulted, 0x0000#16)) ∧
    (∃ t, step { start 0x2300#16 with sp := 16 } = .next t ∧ (t.run, t.faultInfo) = (.faulted, 0x0010#16)) ∧
    (∃ t, step { start 0xF065#16 with i := 0x1000#16 } = .next t ∧ (t.run, t.faultInfo) = (.faulted, 0x1000#16)) ∧
    (∃ t, step ((start 0xE29E#16).setReg 2 0xFF#8) = .next t ∧ (t.run, t.faultInfo) = (.faulted, 0x00FF#16)) :=
  ⟨exists_of_seen (by decide), exists_of_seen (by decide), exists_of_seen (by decide), exists_of_seen (by decide)⟩

theorem witness_OnlyListedInstructionsFail :
    State.reset.run = .running ∧ Instr.canFail (.opFx0A 3) = false ∧ Instr.canFail (.op8xy4 1 15) = false := by decide

/-- Inputs that differ in everything an Fx0A does not read, and others for a skip on key 5 and for Cxnn. -/
theorem witness_InstructionsReadOnlyTheirInputs :
    (keysDown [2] 2 0x00#8).anyKey = (keysDown [2, 3] 2 0xFF#8).anyKey ∧
    (keysDown [5] 5 0x00#8).keys[5] = (keysDown [5, 6] 6 0xFF#8).keys[5] ∧
    (keysDown [] 0 0xA5#8).rnd = (keysDown [1] 1 0xA5#8).rnd := by decide

theorem witness_RegistersAreWrittenAsTheAccessTableSays :
    Instr.writes (.op8xy4 1 2) 2 = false ∧ Instr.writes (.opFx65 3) 4 = false ∧ Instr.writes (.op7xnn 0 0xFF#8) 15 = false ∧
    Instr.writes (.op8xy4 1 2) 15 = true := by decide

/-- The register is written whatever it held, and the register is left alone. -/
theorem witness_RegistersAreReadAsTheAccessTableSays :
    (Instr.reads (.op6xnn 1 0x07#8) 1 = false ∧ Instr.writes (.op6xnn 1 0x07#8) 1 = true) ∧
    (Instr.reads (.opFx55 3) 4 = false ∧ Instr.writes (.opFx55 3) 4 = false) ∧ Instr.reads (.opFx55 3) 3 = true := by decide

theorem witness_FlagIsZeroOrOne : Instr.writesFlag (.opDxyn 0 1 1) = true ∧ Instr.writesFlag (.op8xy5 15 1) = true ∧
    ∃ t, exec (.op8xy5 15 1) (start 0x8F15#16) = .next t ∧ t.run = .running :=
  ⟨rfl, rfl, exists_of_seen (f := State.run) (by decide)⟩

theorem witness_OnlyClearAndDrawChangeTheDisplay :
    (∀ und, Instr.opFx33 0 ≠ .op00E0 und) ∧ ∀ x y n, Instr.opFx33 0 ≠ .opDxyn x y n :=
  ⟨nofun, nofun⟩

theorem witness_OnlyStoresChangeMemory : (∀ x, Instr.opFx65 3 ≠ .opFx33 x) ∧ ∀ x, Instr.opFx65 3 ≠ .opFx55 x :=
  ⟨nofun, nofun⟩

theorem witness_OnlyCallAndReturnChangeTheStack :
    (∀ nnn, Instr.op1nnn 0x300#12 ≠ .op2nnn nnn) ∧ (∀ und, Instr.op1nnn 0x300#12 ≠ .op00EE und) ∧
    (15 : Fin 16).val ≠ ({ State.reset with sp := 16 } : State).sp.val :=
  ⟨nofun, nofun, by decide⟩

theorem witness_SpecialRegistersHaveTheirWriters :
    (∀ nnn, Instr.opFx55 3 ≠ .opAnnn nnn) ∧ (∀ x, Instr.opFx55 3 ≠ .opFx1E x) ∧ (∀ x, Instr.opFx55 3 ≠ .opFx29 x) ∧
    (∀ x, Instr.opFx55 3 ≠ .opFx15 x) ∧ (∀ x, Instr.opFx55 3 ≠ .opFx18 x) ∧ Instr.movesPc (.opFx55 3) = false ∧
    ∃ t, exec (.opFx55 3) State.reset = .next t ∧ t.run = .running :=
  ⟨nofun, nofun, nofun, nofun, nofun, rfl, exists_of_seen (f := State.run) (by decide)⟩

/-- A state after a run of one cycle, and one about to fail. -/
theorem witness_StepKeepsTheInvariant :
    (State.Inv (start 0x00EE#16) ∧ ∃ t, step (start 0x00EE#16) = .next t ∧ t.run = .faulted) ∧
    State.Inv { State.reset with
      run := .faulted, faultCause := 2#3, faultPc := 0x0200#16, faultInfo := 0x1000#16, sp := 16 } :=
  ⟨⟨⟨by decide, by decide, by decide⟩, exists_of_seen (f := State.run) (by decide)⟩, by decide, by decide, by decide⟩

/-- `PC` and a return address at their bounds. -/
theorem witness_StepKeepsPcBounded :
    State.PcBounded { State.reset with pc := 0x10FE#16, stack := Vector.replicate 16 0x1000#16 } ∧
    ∃ t, step ((start 0xBFFF#16).setReg 0 0xFF#8) = .next t ∧ t.pc = 0x10FE#16 :=
  ⟨⟨by decide, by decide⟩, exists_of_seen (by decide)⟩

/-- A word of each family that a decoding clause is about. -/
theorem witness_decoding_clauses :
    opOf 0x1FFF#16 = 0x1#4 ∧ opOf 0x2000#16 = 0x2#4 ∧ opOf 0x3FFF#16 = 0x3#4 ∧ opOf 0x4000#16 = 0x4#4 ∧
    opOf 0x512F#16 = 0x5#4 ∧ opOf 0x6FFF#16 = 0x6#4 ∧ opOf 0x7000#16 = 0x7#4 ∧ opOf 0x912F#16 = 0x9#4 ∧
    opOf 0xA000#16 = 0xA#4 ∧ opOf 0xBFFF#16 = 0xB#4 ∧ opOf 0xC000#16 = 0xC#4 ∧ opOf 0xD01F#16 = 0xD#4 := by decide

theorem witness_CallPushesTheReturnAddress :
    ({ State.reset with sp := 15 } : State).sp.val < 16 ∧ ({ State.reset with sp := 16 } : State).sp.val = 16 := by decide

theorem witness_ReturnPopsTheReturnAddress :
    ({ State.reset with sp := 16 } : State).sp.val = (15 : Fin 16).val + 1 ∧
    ({ State.reset with sp := 1 } : State).sp.val = (0 : Fin 16).val + 1 ∧ State.reset.sp.val = 0 := by decide

/-- The state a call left, with other registers, is such a state in between. -/
theorem witness_ReturnAfterCallRestoresPcAndSp :
    State.reset.sp.val < 16 ∧ ∃ t, exec (.op2nnn 0x300#12) State.reset = .next t ∧
      ({ t with dt := 7#8 } : State).sp = t.sp ∧ ({ t with dt := 7#8 } : State).stack = t.stack :=
  ⟨by decide, _, exec_op2nnn_ok _ (by decide), rfl, rfl⟩

theorem witness_StoreDecimalDigits :
    (atI 0x0FFD#16).mem.wf = true ∧ (atI 0x0FFD#16).base + 2 ≤ 0x0FFF := by decide

theorem witness_StoreRegisterRange :
    ((atI 0x0FF0#16).mem.wf = true ∧ (atI 0x0FF0#16).base + (15 : RegIdx).val ≤ 0x0FFF) ∧
    ((atI 0x0FFF#16).mem.wf = true ∧ (atI 0x0FFF#16).base + (0 : RegIdx).val ≤ 0x0FFF) := by decide

theorem witness_LoadRegisterRange :
    (atI 0x0FF0#16).base + (15 : RegIdx).val ≤ 0x0FFF ∧
    (atI 0x0FFF#16).base + (0 : RegIdx).val ≤ 0x0FFF := by decide

/-- Each clause at its lowest address, with `x` and `n` at both ends, and at 0xFFFF. -/
theorem witness_RangeOutsideMemoryIsABoundsError :
    0x0FFF < (atI 0x0FFE#16).base + 2 ∧
    0x0FFF < (atI 0x1000#16).base + (0 : RegIdx).val ∧
    0x0FFF < (atI 0x0FF1#16).base + (15 : RegIdx).val ∧
    0x0FFF < (atI 0xFFFF#16).base + (15 : RegIdx).val ∧
    (0 < (1 : Fin 16).val ∧ 0x1000 < (atI 0x1000#16).base + (1 : Fin 16).val) ∧
    (0 < (15 : Fin 16).val ∧ 0x1000 < (atI 0x0FF2#16).base + (15 : Fin 16).val) := by decide

/-- Stored registers `V[0]` to `V[3]`, and a register above them. -/
theorem witness_StoreThenLoadRestoresTheRegisters :
    (atI 0x0FFC#16).mem.wf = true ∧ (atI 0x0FFC#16).base + (3 : RegIdx).val ≤ 0x0FFF ∧
    (3 : RegIdx) ≤ 3 ∧ (3 : RegIdx) < 4 := by decide

/-- The last word of memory, rewritten from `V[14]` and `V[15]`. -/
theorem witness_NextFetchSeesTheStoredBytes :
    ∃ s : State, s = { atI 0x0FF0#16 with pc := 0x0FFE#16 } ∧ s.mem.wf = true ∧
      s.base + (15 : RegIdx).val ≤ 0x0FFF ∧ (15 : RegIdx) ≤ 15 ∧ (15 : RegIdx).val = (14 : RegIdx).val + 1 ∧
      s.pc.toNat = s.base + (14 : RegIdx).val :=
  ⟨_, rfl, by decide⟩

/-- The first address outside, the last a register can hold, the last inside; fetch at its last address. -/
theorem witness_MemReadAndMemWrite :
    State.reset.mem.wf = true ∧ (0x0FFF < 0x1000 ∧ 0x1000 ≤ 0xFFFF) ∧ (0x0FFF < 0xFFFF ∧ 0xFFFF ≤ 0xFFFF) ∧
    0x0FFF ≤ 0xFFFF ∧ ({ State.reset with pc := 0x0FFE#16 } : State).pc.toNat ≤ 0x0FFE := by decide

theorem witness_ClearDisplay : (opOf 0x0FF0#16 = 0x0#4 ∧ lowNibbleOf 0x0FF0#16 = 0x0#4) ∧ 63 < 64 ∧ 31 < 32 := by decide

/-- A lit pixel erased across both edges, and one beside it. -/
theorem witness_ToggleXorsOnePixel :
    (Framebuffer.blank.setPixel 63 31 true).pixel (127 % 64) (63 % 32) = true ∧ 63 < 64 ∧ 31 < 32 ∧ 63 = 127 % 64 ∧
    ¬ 62 = 127 % 64 := by decide

/-- No rows at all with `I` outside memory, and fifteen rows up to the last byte of memory. -/
theorem witness_DrawSpriteXorsTheCoveredPixels :
    (0 : Fin 16).val = 0 ∧ (atI 0x0FF1#16).base + (15 : Fin 16).val ≤ 0x1000 := by decide

/-- The font's glyph 0, drawn on a blank display: no collision, and a row with a set bit. -/
theorem witness_DrawingTwiceErasesTheSprite :
    (atI 0x0050#16).base + (5 : Fin 16).val ≤ 0x1000 ∧
    (∃ t, exec (.opDxyn 0 1 5) (atI 0x0050#16) = .next t ∧ t.reg 15 = 0x00#8) ∧
    ∃ k, k < (5 : Fin 16).val ∧ (atI 0x0050#16).mem.read ((atI 0x0050#16).base + k) ≠ 0x00#8 :=
  ⟨by decide, exists_of_seen (by decide), 0, by decide⟩

/-- Key numbers at both ends of the keys, the first above them and the last. -/
theorem witness_KeySkipsTestTheKeyLevel :
    ((State.reset.setReg 2 0x00#8).reg 2).toNat = (0 : Key).val ∧
    ((State.reset.setReg 2 0x0F#8).reg 2).toNat = (15 : Key).val ∧
    15 < ((State.reset.setReg 2 0x10#8).reg 2).toNat ∧ 15 < ((State.reset.setReg 2 0xFF#8).reg 2).toNat := by decide

/-- A key reported, and none, with Fx0A at `PC`. -/
theorem witness_WaitForKeyStallsByRewindingPc :
    (startWith 0xF30A#16 (keysDown [2, 15] 15 0x00#8)).input.anyKey = some 15 ∧
    (start 0xF30A#16).input.anyKey = none ∧ (start 0xF30A#16).run = .running ∧ (start 0xF30A#16).pc.toNat ≤ 0x0FFE ∧
    wordOfBytes ((start 0xF30A#16).mem.read 0x200) ((start 0xF30A#16).mem.read 0x201) = 0xF30A#16 ∧
    decode 0xF30A#16 = .ok (.opFx0A 3) :=
  ⟨by decide, by decide, by decide, by decide, by decide, rfl⟩

theorem witness_TimerInstructionsMoveTheCount :
    (opOf 0xF107#16 = 0xF#4 ∧ nnOf 0xF107#16 = 0x07#8) ∧ (opOf 0xF015#16 = 0xF#4 ∧ nnOf 0xF015#16 = 0x15#8) ∧
    (opOf 0xF018#16 = 0xF#4 ∧ nnOf 0xF018#16 = 0x18#8) ∧ (start 0xF107#16).run = .running ∧
    (start 0xF107#16).pc.toNat ≤ 0x0FFE := by decide

theorem witness_AnyKeyAgreesWithTheKeys :
    quiet.anyKey = none ∧ (keysDown [9] 0 0x00#8).anyKey = some 9 ∧ (keysDown [2, 9] 9 0x00#8).keys[(9 : Key)] = true := by
  decide

theorem witness_RomLoadPlacesTheBytes :
    (List.replicate 3584 0x01#8).length ≤ 3584 ∧ 3584 < (List.replicate 3585 0x01#8).length ∧
    State.reset.mem.wf = true :=
  ⟨Nat.le_of_eq List.length_replicate, Nat.lt_of_lt_of_eq (by decide) List.length_replicate.symm, rfl⟩

theorem witness_HostViewsAndReset : (63 < 64 ∧ 31 < 32) ∧ (0 < 64 ∧ 0 < 32) := by decide

/-- Logic, copy, arithmetic: destinations that are the flag and that are not. -/
theorem witness_flag_and_other_registers : ((1 : RegIdx) ≠ 15 ∧ (2 : RegIdx) ≠ 1 ∧ (2 : RegIdx) ≠ 15) ∧
    (lowNibbleOf 0x8F14#16 = 0x4#4 ∧ opOf 0x8F14#16 = 0x8#4) ∧ (lowNibbleOf 0x8125#16 = 0x5#4 ∧ opOf 0x8125#16 = 0x8#4) ∧
    (lowNibbleOf 0x8127#16 = 0x7#4 ∧ opOf 0x8127#16 = 0x8#4) ∧ (lowNibbleOf 0x8120#16 = 0x0#4 ∧ opOf 0x8120#16 = 0x8#4) := by
  decide

theorem witness_ResetState : 79 < 80 ∧ 0x04F < 0x050 ∧ 0x0A0 ≤ 0x0A0 := by decide

end Sys2Proof.Tests
end

section
/-!
SUPPORT. What one execute phase can do to the state, by the kind of write and not by instruction: the shape every frame
and invariant of 10_state.md is read off. `exec_effect` ties it to `exec`.
-/

namespace Sys2Proof.Machine

/-- The instruction sets `I` in its execute phase (10_state.md R23). -/
def SetsIndex (i : Instr) : Prop := (∃ nnn, i = .opAnnn nnn) ∨ (∃ x, i = .opFx1E x) ∨ ∃ x, i = .opFx29 x

/-- The instruction stores bytes in memory (20_memory.md R60). -/
def StoresBytes (i : Instr) : Prop := (∃ x, i = .opFx33 x) ∨ ∃ x, i = .opFx55 x

theorem writes_of_writesOperand {i : Instr} {k : RegIdx} (h : i.writesOperand k = true) : i.writes k = true := by
  simp [Instr.writes, h]

theorem writes_vf {i : Instr} (h : i.writesFlag = true) : i.writes vf = true := by
  simp [Instr.writes, h]

/-- The state after Fx65 has loaded `V[0]` to `V[x]` from memory (43_index_memory.md R195). -/
def State.loadRange (s : State) (x : RegIdx) : State :=
  { s with v := loadRegs s.v 0 (s.mem.readBytes s.i.toNat (x.val + 1)) }

/-- Instruction `i`, in its execute phase from `s`, leaves `t`: one constructor for each kind of write the 34 meanings
make, with what is needed to say which instructions make it, and one for the fatal error. -/
inductive Effect (s : State) : Instr → State → Prop
  | clear (und : BitVec 8) : Effect s (.op00E0 und) { s with fb := s.fb.clear }
  | draw (x y : RegIdx) (n : Fin 16) (rows : List Byte) : Effect s (.opDxyn x y n) (s.drawSprite x y rows)
  | call (nnn : BitVec 12) (h : s.sp.val < 16) : Effect s (.op2nnn nnn)
      { s with pc := addressToWord nnn, stack := s.stack.set s.sp.val s.pc h, sp := ⟨s.sp.val + 1, by omega⟩ }
  | ret (und : BitVec 8) (h : 0 < s.sp.val) : Effect s (.op00EE und)
      { s with pc := s.stack[s.sp.val - 1]'(by omega), sp := ⟨s.sp.val - 1, by omega⟩ }
  | jump {i : Instr} (a : Word) (hi : i.movesPc = true) (ha : a.toNat ≤ 0x10FE) : Effect s i { s with pc := a }
  | skip {i : Instr} (c : Bool) (hi : i.movesPc = true) : Effect s i (s.skipIf c)
  | wait (x : RegIdx) : Effect s (.opFx0A x) { s with pc := s.pc - 2#16 }
  | register {i : Instr} (x : RegIdx) (b : Byte) (hi : i.writes x = true) : Effect s i (s.setReg x b)
  | flagged {i : Instr} (x : RegIdx) (b : Byte) (f : Bool) (hi : i.writes x = true) (hf : i.writes vf = true) :
      Effect s i (s.setResultAndFlag x b f)
  | load (x : RegIdx) : Effect s (.opFx65 x) (s.loadRange x)
  | index {i : Instr} (a : Word) (hi : SetsIndex i) : Effect s i { s with i := a }
  | delay (x : RegIdx) : Effect s (.opFx15 x) { s with dt := s.reg x }
  | sound (x : RegIdx) : Effect s (.opFx18 x) { s with st := s.reg x }
  | store {i : Instr} (bytes : List Byte) (hi : StoresBytes i) (hfit : s.i.toNat + bytes.length ≤ 0x1000) :
      Effect s i { s with mem := s.mem.writeBytes s.i.toNat bytes }
  | fault {i : Instr} (f : Fault) (hi : i.canFail = true) : Effect s i (s.raise (s.pc - 2#16) f)

theorem jumpOffset_le (b : Byte) (nnn : BitVec 12) : (byteToWord b + addressToWord nnn).toNat ≤ 0x10FE := by
  have hb := b.isLt
  have hn := nnn.isLt
  rw [BitVec.toNat_add, byteToWord_toNat, addressToWord_toNat]
  omega

/-- A handler that may fail has an effect once each of its results has one. -/
theorem complete_effect {s : State} {i : Instr} {r : Except Fault State} (hi : i.canFail = true)
    (hok : ∀ u, r = .ok u → Effect s i u) : ∃ t, s.complete r = .next t ∧ Effect s i t := by
  cases r with
  | ok u => exact ⟨u, rfl, hok u rfl⟩
  | error f => exact ⟨_, rfl, .fault f hi⟩

/-- Every execute phase answers with a next state, which is an effect of the instruction. -/
theorem exec_effect (i : Instr) (s : State) : ∃ t, exec i s = .next t ∧ Effect s i t := by
  cases i with
  | op00E0 und => exact ⟨_, rfl, .clear und⟩
  | opDxyn x y n =>
    refine complete_effect rfl fun u hu => ?_
    obtain ⟨-, e⟩ | ⟨-, e⟩ := s.loadAtI_cases n.val <;> rw [e] at hu <;> cases hu
    exact .draw x y n _
  | op2nnn nnn =>
    refine complete_effect rfl fun u hu => ?_
    obtain ⟨h, e⟩ | ⟨-, e⟩ := s.push_cases <;> rw [e] at hu <;> cases hu
    exact .call nnn h
  | op00EE und =>
    refine complete_effect rfl fun u hu => ?_
    obtain ⟨h, e⟩ | ⟨-, e⟩ := s.pop_cases <;> rw [e] at hu <;> cases hu
    exact .ret und h
  | op1nnn nnn =>
    have := nnn.isLt
    exact ⟨_, rfl, .jump _ rfl (by rw [addressToWord_toNat]; omega)⟩
  | opBnnn nnn => exact ⟨_, rfl, .jump _ rfl (jumpOffset_le _ _)⟩
  | op3xnn x nn | op4xnn x nn | op5xy0 x y und | op9xy0 x y und => exact ⟨_, rfl, .skip _ rfl⟩
  | opEx9E x und | opExA1 x und =>
    refine complete_effect rfl fun u hu => ?_
    obtain ⟨_, e⟩ | ⟨-, e⟩ := s.keyDown_cases (s.reg x) <;> rw [e] at hu <;> cases hu
    exact .skip _ rfl
  | opFx0A x =>
    cases hk : s.input.anyKey with
    | none => exact ⟨_, exec_opFx0A_none x hk, .wait x⟩
    | some k => exact ⟨_, exec_opFx0A_some x hk, .register x _ (writes_of_writesOperand (beq_self_eq_true x))⟩
  | op6xnn x nn | op7xnn x nn | op8xy0 x y | op8xy1 x y | op8xy2 x y | op8xy3 x y | opCxnn x nn | opFx07 x =>
    exact ⟨_, rfl, .register x _ (writes_of_writesOperand (beq_self_eq_true x))⟩
  | op8xy4 x y | op8xy5 x y | op8xy6 x y | op8xy7 x y | op8xyE x y =>
    exact ⟨_, rfl, .flagged x _ _ (writes_of_writesOperand (beq_self_eq_true x)) (writes_vf rfl)⟩
  | opFx65 x =>
    refine complete_effect rfl fun u hu => ?_
    obtain ⟨-, e⟩ | ⟨-, e⟩ := s.loadAtI_cases (x.val + 1) <;> rw [e] at hu <;> cases hu
    exact .load x
  | opAnnn nnn => exact ⟨_, rfl, .index _ (.inl ⟨nnn, rfl⟩)⟩
  | opFx1E x => exact ⟨_, rfl, .index _ (.inr (.inl ⟨x, rfl⟩))⟩
  | opFx29 x => exact ⟨_, rfl, .index _ (.inr (.inr ⟨x, rfl⟩))⟩
  | opFx15 x => exact ⟨_, rfl, .delay x⟩
  | opFx18 x => exact ⟨_, rfl, .sound x⟩
  | opFx33 x =>
    refine complete_effect rfl fun u hu => ?_
    obtain ⟨h, e⟩ | ⟨-, e⟩ := s.storeAtI_cases (bcdDigits (s.reg x)) <;> rw [e] at hu <;> cases hu
    exact .store _ (.inl ⟨x, rfl⟩) (h.resolve_left (Nat.succ_ne_zero 2))
  | opFx55 x =>
    refine complete_effect rfl fun u hu => ?_
    obtain ⟨h, e⟩ | ⟨-, e⟩ := s.storeAtI_cases (s.regsUpTo x) <;> rw [e] at hu <;> cases hu
    exact .store _ (.inr ⟨x, rfl⟩) (h.resolve_left (by simp))

/-- The next state of an execute phase is an effect of the instruction. -/
theorem effect_of_exec {i : Instr} {s t : State} (h : exec i s = .next t) : Effect s i t := by
  obtain ⟨u, hu, he⟩ := exec_effect i s
  cases h.symm.trans hu
  exact he

end Sys2Proof.Machine
end

section
/-!
SUPPORT. The frames of 10_state.md R21 to R29 and the two invariants, read off `Effect`; the fatal error of a cycle and
its end keep the invariant.
-/

namespace Sys2Proof.Machine

section Frames

variable {s t : State} {i : Instr}

theorem State.reg_drawSprite (s : State) (x y : RegIdx) (rows : List Byte) {k : RegIdx} (hk : k ≠ vf) :
    (s.drawSprite x y rows).reg k = s.reg k :=
  State.reg_setReg_ne _ _ hk

theorem State.reg_loadRange (s : State) (x k : RegIdx) :
    (s.loadRange x).reg k = if k ≤ x then s.mem.read (s.i.toNat + k.val) else s.reg k := by
  have h : k.val < x.val + 1 ↔ k ≤ x := Nat.lt_succ_iff
  exact (loadRegs_readBytes s (x.val + 1) k).trans (by simp only [h])

theorem ne_of_writes {k x : RegIdx} (hx : i.writes x = true) (hk : i.writes k = false) : k ≠ x := by
  rintro rfl
  simp [hx] at hk

/-- R21: a register outside the write rows keeps its value. -/
theorem Effect.reg_eq (h : Effect s i t) {k : RegIdx} (hk : i.writes k = false) : t.reg k = s.reg k := by
  cases h with
  | register x b hi => exact State.reg_setReg_ne s b (ne_of_writes hi hk)
  | flagged x b f hi hf =>
    rw [State.reg_setResultAndFlag, if_neg (ne_of_writes hf hk), if_neg (ne_of_writes hi hk)]
  | draw x y n rows => exact State.reg_drawSprite s x y rows (ne_of_writes rfl hk)
  | load x =>
    have hx : ¬ k ≤ x := by simpa [Instr.writes, Instr.writesOperand, Instr.writesFlag] using hk
    rw [State.reg_loadRange, if_neg hx]
  | _ => rfl

/-- R25: `SP` moves by call and return alone. -/
theorem Effect.sp_eq (h : Effect s i t) (hc : ∀ nnn, i ≠ .op2nnn nnn) (hr : ∀ und, i ≠ .op00EE und) :
    t.sp = s.sp := by
  cases h with
  | call nnn h => exact absurd rfl (hc nnn)
  | ret und h => exact absurd rfl (hr und)
  | _ => rfl

/-- R26: the stack is written by a call alone. -/
theorem Effect.stack_eq (h : Effect s i t) (hc : ∀ nnn, i ≠ .op2nnn nnn) : t.stack = s.stack := by
  cases h with
  | call nnn h => exact absurd rfl (hc nnn)
  | _ => rfl

/-- Each stack entry is as before, or is the one at `SP` and holds `npc`. -/
theorem Effect.stack_entry (h : Effect s i t) (k : Fin 16) :
    t.stack[k] = s.stack[k] ∨ k.val = s.sp.val ∧ t.stack[k] = s.pc := by
  cases h with
  | call nnn h =>
    by_cases hk : k.val = s.sp.val
    · exact .inr ⟨hk, by simp [hk]⟩
    · exact .inl (Vector.getElem_set_ne h k.isLt (Ne.symm hk))
  | _ => exact .inl rfl

/-- R23: `I` is set by Annn, Fx1E and Fx29 alone. -/
theorem Effect.i_eq (h : Effect s i t) (hi : ¬ SetsIndex i) : t.i = s.i := by
  cases h with
  | index a hs => exact absurd hs hi
  | _ => rfl

/-- R27: in the execute phase `DT` is set by Fx15 alone. -/
theorem Effect.dt_eq (h : Effect s i t) (hi : ∀ x, i ≠ .opFx15 x) : t.dt = s.dt := by
  cases h with
  | delay x => exact absurd rfl (hi x)
  | _ => rfl

/-- R28: in the execute phase `ST` is set by Fx18 alone. -/
theorem Effect.st_eq (h : Effect s i t) (hi : ∀ x, i ≠ .opFx18 x) : t.st = s.st := by
  cases h with
  | sound x => exact absurd rfl (hi x)
  | _ => rfl

/-- R29 and the model's own fields: no execute phase touches them. -/
theorem Effect.ir_inputs_draws_warn_eq (h : Effect s i t) :
    t.ir = s.ir ∧ t.inputs = s.inputs ∧ t.draws = s.draws ∧ t.warn = s.warn := by
  cases h <;> exact ⟨rfl, rfl, rfl, rfl⟩

/-- R24: without a transfer of control, a wait or a fatal error `PC` stays at `npc`. -/
theorem Effect.pc_eq (h : Effect s i t) (hi : i.movesPc = false) (hr : t.run = .running) : t.pc = s.pc := by
  cases h with
  | jump _ hm | skip _ hm => simp [hi] at hm
  | call | ret | wait => cases hi
  | fault => cases hr
  | _ => rfl

/-- A store that completes lies inside memory, so every effect keeps memory canonical. -/
theorem Effect.mem_wf (h : Effect s i t) (hm : s.mem.wf = true) : t.mem.wf = true := by
  cases h with
  | store bytes _ hfit => exact Memory.wf_writeBytes hm s.i.toNat bytes hfit
  | _ => exact hm

/-- From `npc` of a word inside memory, every effect leaves `PC` within the bound: the highest is the sum of Bnnn. -/
theorem Effect.pc_le (h : Effect s i t) (h2 : 2 ≤ s.pc.toNat) (hp : s.pc.toNat ≤ 0x1000)
    (hs : ∀ k : Fin 16, s.stack[k].toNat ≤ 0x1000) : t.pc.toNat ≤ 0x10FE := by
  have back : (s.pc - 2#16).toNat ≤ 0x10FE := by bv_omega
  have ahead : (s.pc + 2#16).toNat ≤ 0x10FE := by bv_omega
  have here : s.pc.toNat ≤ 0x10FE := by omega
  cases h with
  | jump a _ ha => exact ha
  | call nnn =>
    have := nnn.isLt
    rw [addressToWord_toNat]
    omega
  | ret und h => exact Nat.le_trans (hs ⟨s.sp.val - 1, by omega⟩) (by decide)
  | skip c =>
    cases c with
    | false => exact here
    | true => exact ahead
  | wait | fault => exact back
  | _ => exact here

theorem Effect.pcBounded (h : Effect s i t) (h2 : 2 ≤ s.pc.toNat) (hp : s.pc.toNat ≤ 0x1000)
    (hs : ∀ k : Fin 16, s.stack[k].toNat ≤ 0x1000) : t.PcBounded := by
  refine ⟨h.pc_le h2 hp hs, fun k => ?_⟩
  obtain hk | ⟨-, hk⟩ := h.stack_entry k <;> rw [hk]
  · exact hs k
  · exact hp

/-! ## The ends of a cycle -/

@[simp] theorem State.pc_endCycle (s : State) (w : Word) : (s.endCycle w).pc = s.pc := by
  unfold State.endCycle
  split <;> simp

@[simp] theorem State.stack_endCycle (s : State) (w : Word) : (s.endCycle w).stack = s.stack := by
  unfold State.endCycle
  split <;> simp

/-- The invariant after a fatal error taken and the cycle abandoned. -/
theorem State.inv_abandon_raise {f : Fault} (pc0 : Word) (hm : s.mem.wf = true) (hf : f.Reports s) :
    ((s.raise pc0 f).abandon).Inv := by
  refine ⟨by simpa using hm, by simp, fun _ => ⟨by simp, by simp, ?_⟩⟩
  cases f with
  | boundsError a => exact .inl ⟨by simp [Fault.code], by simpa [Fault.info, Fault.Reports] using hf⟩
  | stackError n => exact .inr ⟨by simp [Fault.code], by simpa [Fault.info, Fault.Reports] using hf⟩

/-- The invariant after a cycle that completed. -/
theorem State.inv_finish (w : Word) (e : Option Word) (hm : s.mem.wf = true) (hr : s.run = .running)
    (hclear : s.faultCause = 0#3 ∧ s.faultPc = 0x0000#16 ∧ s.faultInfo = 0x0000#16) : (s.finish w e).Inv :=
  ⟨by simpa using hm, fun _ => by simpa using hclear, by simp [hr]⟩

end Frames

/-! ## The statements -/

/-- Settles O25: a cycle request (`step_cases`) leaves a FAULTED core as it is, ends its cycle by a fatal error, or
completes it. -/
theorem stepKeepsTheInvariant : Obligations.StepKeepsTheInvariant := by
  unfold Obligations.StepKeepsTheInvariant
  intro s t hinv hstep
  obtain ⟨-, rfl⟩ | ⟨-, -, rfl⟩ | ⟨hr, -, w, -, -, -, rfl⟩ | ⟨hr, -, w, i, u, -, -, hexec, rfl⟩ := step_cases hstep
  · exact hinv
  · exact State.inv_abandon_raise s.pc hinv.1 (.inl (rangeInfo_ge s.pc))
  · exact State.inv_finish w (some w) hinv.1 hr (hinv.2.1 hr)
  · obtain ⟨hm, hclear, -⟩ := hinv
    obtain ⟨hrun, hcause, hpc, hinfo, -⟩ | ⟨f, hf, rfl⟩ := exec_cases hexec
    · rw [State.endCycle_running w (hrun.trans hr)]
      refine State.inv_finish w none ((effect_of_exec hexec).mem_wf hm) (hrun.trans hr) ?_
      rw [hcause, hpc, hinfo]
      exact hclear hr
    · exact State.inv_abandon_raise _ hm hf

/-- Settles O26: a word is fetched from at most 0x0FFE, so the execute phase begins with `PC` in 2 to 0x1000. -/
theorem stepKeepsPcBounded : Obligations.StepKeepsPcBounded := by
  unfold Obligations.StepKeepsPcBounded
  intro s t hb hstep
  obtain ⟨-, rfl⟩ | ⟨-, -, rfl⟩ | ⟨-, hp, w, -, -, -, rfl⟩ | ⟨-, hp, w, i, u, -, -, hexec, rfl⟩ := step_cases hstep
  · exact hb
  · simpa [State.PcBounded] using hb
  · have hnpc : (s.pc + 2#16).toNat ≤ 0x10FE := by bv_omega
    exact ⟨by simpa using hnpc, by simpa using hb.2⟩
  · have hu : u.PcBounded := (effect_of_exec hexec).pcBounded
      (by rw [State.pc_advance]; bv_omega) (by rw [State.pc_advance]; bv_omega) hb.2
    simpa [State.PcBounded] using hu

/-- Settles O16, by the effect's frame on registers. -/
theorem registersAreWrittenAsTheAccessTableSays : Obligations.RegistersAreWrittenAsTheAccessTableSays := by
  unfold Obligations.RegistersAreWrittenAsTheAccessTableSays
  intro i s k hk
  obtain ⟨t, ht, he⟩ := exec_effect i s
  exact ⟨t, ht, he.reg_eq hk⟩

/-- Settles O21, by the effect's frames on `SP` and the stack. -/
theorem onlyCallAndReturnChangeTheStack : Obligations.OnlyCallAndReturnChangeTheStack := by
  unfold Obligations.OnlyCallAndReturnChangeTheStack
  intro i s
  obtain ⟨t, ht, he⟩ := exec_effect i s
  refine ⟨t, ht, he.sp_eq, he.stack_eq, fun k hk => ?_⟩
  exact (he.stack_entry k).resolve_right fun h => hk h.1

/-- Settles O22, by the effect's frames on the special registers. -/
theorem specialRegistersHaveTheirWriters : Obligations.SpecialRegistersHaveTheirWriters := by
  unfold Obligations.SpecialRegistersHaveTheirWriters
  intro i s
  obtain ⟨t, ht, he⟩ := exec_effect i s
  obtain ⟨hir, hinputs, hdraws, hwarn⟩ := he.ir_inputs_draws_warn_eq
  refine ⟨t, ht, fun ha h1e h29 => he.i_eq ?_, he.dt_eq, he.st_eq, hir, hinputs, hdraws, hwarn, he.pc_eq⟩
  rintro (⟨nnn, h⟩ | ⟨x, h⟩ | ⟨x, h⟩)
  · exact ha nnn h
  · exact h1e x h
  · exact h29 x h

end Sys2Proof.Machine
end

section
/-!
SUPPORT. A register an instruction does not read (10_state.md R21): a run with another value in it, beside the first.
-/

namespace Sys2Proof.Machine

/-! ## Updates of a state in which one register was changed first -/

theorem State.setReg_setReg_same (s : State) (k : RegIdx) (b c : Byte) :
    (s.setReg k b).setReg k c = s.setReg k c := by
  simp [State.setReg]

theorem State.setReg_comm (s : State) {j k : RegIdx} (b c : Byte) (h : k ≠ j) :
    (s.setReg k b).setReg j c = (s.setReg j c).setReg k b := by
  simp only [State.setReg]
  rw [Vector.set_comm _ _ (Fin.val_ne_of_ne h)]

theorem State.setReg_reg_self (s : State) (k : RegIdx) : s = s.setReg k (s.reg k) := by
  simp [State.setReg, State.reg]

@[simp] theorem State.input_setReg (s : State) (k : RegIdx) (b : Byte) : (s.setReg k b).input = s.input := rfl

theorem State.regsUpTo_setReg (s : State) {x k : RegIdx} (b : Byte) (h : x.val < k.val) :
    (s.setReg k b).regsUpTo x = s.regsUpTo x := by
  refine List.ext_getElem (by simp) fun j hj _ => ?_
  rw [State.length_regsUpTo] at hj
  rw [State.regsUpTo_getElem, State.regsUpTo_getElem, State.reg_setReg_ne]
  exact Fin.ne_of_val_ne (by simp only; omega)

section Unread

/-- Register `k` was `b` before a run that ended in `u`, and as in `s` before one that ended in `t`: both left it alone
and agree elsewhere, or, where the instruction may write it (`w`), they agree altogether. -/
def Unread (k : RegIdx) (b : Byte) (w : Bool) (s t u : State) : Prop :=
  (t.reg k = s.reg k ∧ u = t.setReg k b) ∨ (w = true ∧ u = t)

variable {s : State} {k : RegIdx} {b : Byte} {w : Bool}

/-- A register written with the same value in both runs. -/
theorem unread_setReg {x : RegIdx} {r r' : Byte} (hw : k = x → w = true) (hr : r' = r) :
    Unread k b w s (s.setReg x r) ((s.setReg k b).setReg x r') := by
  subst hr
  by_cases h : k = x
  · subst h
    exact .inr ⟨hw rfl, s.setReg_setReg_same k b r'⟩
  · exact .inl ⟨s.reg_setReg_ne r' h, s.setReg_comm b r' h⟩

/-- A result and a flag, the same in both runs. -/
theorem unread_setResultAndFlag {x : RegIdx} {r r' : Byte} {f f' : Bool} (hx : k = x → w = true)
    (hf : k = vf → w = true) (hr : r' = r) (hf' : f' = f) :
    Unread k b w s (s.setResultAndFlag x r f) ((s.setReg k b).setResultAndFlag x r' f') := by
  obtain ⟨hreg, hu⟩ | ⟨hw, hu⟩ := unread_setReg (s := s) (b := b) hx hr
  · simp only [State.setResultAndFlag]
    rw [hu]
    obtain ⟨hreg', hu'⟩ | ⟨hw, hu'⟩ := unread_setReg (s := s.setReg x r) (b := b) hf (congrArg flagByte hf')
    · exact .inl ⟨hreg'.trans hreg, hu'⟩
    · exact .inr ⟨hw, hu'⟩
  · simp only [State.setResultAndFlag]
    rw [hu, hf']
    exact .inr ⟨hw, rfl⟩

/-- A sprite drawn at coordinates in other registers. -/
theorem unread_drawSprite {x y : RegIdx} (rows : List Byte) (hx : k ≠ x) (hy : k ≠ y) (hf : k = vf → w = true) :
    Unread k b w s (s.drawSprite x y rows) ((s.setReg k b).drawSprite x y rows) := by
  simp only [State.drawSprite, s.reg_setReg_ne b hx.symm, s.reg_setReg_ne b hy.symm, State.fb_setReg]
  exact unread_setReg (s := { s with fb := _ }) hf rfl

/-- States alike but for the register file are equal when every register is. -/
theorem State.eq_of_reg_eq {t u : State} (h : ∀ j, u.reg j = t.reg j) (hv : u = { t with v := u.v }) : u = t := by
  rw [hv, State.reg_ext h]

/-- Registers loaded from memory, which is the same in both runs. -/
theorem unread_loadRange (x : RegIdx) (hw : k ≤ x → w = true) :
    Unread k b w s (s.loadRange x) ((s.setReg k b).loadRange x) := by
  by_cases h : k ≤ x
  · refine .inr ⟨hw h, State.eq_of_reg_eq (fun j => ?_) rfl⟩
    rw [State.reg_loadRange, State.reg_loadRange]
    split
    · rfl
    · next hj => exact s.reg_setReg_ne b (by rintro rfl; exact hj h)
  · refine .inl ⟨by rw [State.reg_loadRange, if_neg h], State.eq_of_reg_eq (fun j => ?_) rfl⟩
    rw [State.reg_setReg, State.reg_loadRange, State.reg_loadRange, State.reg_setReg]
    split
    · next hj => rw [if_neg (by rintro rfl; exact h hj)]; rfl
    · rfl

/-- Two results of a handler, with register `k` as in `s` and with `b` in it: they fail alike, or complete alike. -/
def UnreadResult (k : RegIdx) (b : Byte) (w : Bool) (s : State) (r r' : Except Fault State) : Prop :=
  (∃ f, r = .error f ∧ r' = .error f) ∨ ∃ t u, r = .ok t ∧ r' = .ok u ∧ Unread k b w s t u

theorem unread_complete {r r' : Except Fault State} (h : UnreadResult k b w s r r') :
    ∃ t u, s.complete r = .next t ∧ (s.setReg k b).complete r' = .next u ∧ Unread k b w s t u := by
  obtain ⟨f, rfl, rfl⟩ | ⟨t, u, rfl, rfl, hu⟩ := h
  · exact ⟨_, _, rfl, rfl, .inl ⟨rfl, rfl⟩⟩
  · exact ⟨t, u, rfl, rfl, hu⟩

theorem unreadResult_pop : UnreadResult k b w s s.pop (s.setReg k b).pop := by
  obtain ⟨h, e⟩ | ⟨h, e⟩ := s.pop_cases
  · exact .inr ⟨_, _, e, State.pop_ok (s := s.setReg k b) h, .inl ⟨rfl, rfl⟩⟩
  · exact .inl ⟨_, e, State.pop_error (s := s.setReg k b) h⟩

theorem unreadResult_call (a : Word) :
    UnreadResult k b w s (s.push.map fun t => { t with pc := a })
      ((s.setReg k b).push.map fun t => { t with pc := a }) := by
  obtain ⟨h, e⟩ | ⟨h, e⟩ := s.push_cases
  · rw [e, State.push_ok (s := s.setReg k b) h]
    exact .inr ⟨_, _, rfl, rfl, .inl ⟨rfl, rfl⟩⟩
  · rw [e, State.push_error (s := s.setReg k b) h]
    exact .inl ⟨_, rfl, rfl⟩

theorem unread_skipIf (c : Bool) : Unread k b w s (s.skipIf c) ((s.setReg k b).skipIf c) :=
  .inl ⟨s.reg_skipIf c k, rfl⟩

theorem unreadResult_keySkip (a : Byte) (c : Bool → Bool) :
    UnreadResult k b w s ((s.keyDown a).map fun down => s.skipIf (c down))
      (((s.setReg k b).keyDown a).map fun down => (s.setReg k b).skipIf (c down)) := by
  obtain ⟨h, e⟩ | ⟨h, e⟩ := s.keyDown_cases a
  · rw [e, State.keyDown_ok (s := s.setReg k b) h]
    exact .inr ⟨_, _, rfl, rfl, unread_skipIf _⟩
  · rw [e, State.keyDown_error (s := s.setReg k b) h]
    exact .inl ⟨_, rfl, rfl⟩

theorem unreadResult_loadAtI {len : Nat} {g g' : List Byte → State}
    (hg : Unread k b w s (g (s.mem.readBytes s.i.toNat len)) (g' (s.mem.readBytes s.i.toNat len))) :
    UnreadResult k b w s ((s.loadAtI len).map g) (((s.setReg k b).loadAtI len).map g') := by
  obtain ⟨h, e⟩ | ⟨h, e⟩ := s.loadAtI_cases len
  · rw [e, State.loadAtI_ok (s := s.setReg k b) h]
    exact .inr ⟨_, _, rfl, rfl, hg⟩
  · rw [e, State.loadAtI_error (s := s.setReg k b) h]
    exact .inl ⟨_, rfl, rfl⟩

theorem unreadResult_storeAtI {bytes bytes' : List Byte} (hb : bytes' = bytes) :
    UnreadResult k b w s (s.storeAtI bytes) ((s.setReg k b).storeAtI bytes') := by
  subst hb
  obtain ⟨h, e⟩ | ⟨h, e⟩ := s.storeAtI_cases bytes'
  · exact .inr ⟨_, _, e, State.storeAtI_ok (s := s.setReg k b) h, .inl ⟨rfl, rfl⟩⟩
  · exact .inl ⟨_, e, State.storeAtI_error (s := s.setReg k b) h⟩

end Unread

/-- R21: with another value in a register it does not read, an instruction does the same. -/
theorem exec_unread (i : Instr) (s : State) (k : RegIdx) (b : Byte) (hi : i.reads k = false) :
    ∃ t u, exec i s = .next t ∧ exec i (s.setReg k b) = .next u ∧ Unread k b (i.writes k) s t u := by
  have reg : ∀ {x}, k ≠ x → (s.setReg k b).reg x = s.reg x := fun h => s.reg_setReg_ne b h.symm
  cases i with
  | op00E0 und | op1nnn nnn | opAnnn nnn => exact ⟨_, _, rfl, rfl, .inl ⟨rfl, rfl⟩⟩
  | opBnnn nnn =>
    have h0 : k ≠ 0 := by simpa [Instr.reads] using hi
    exact ⟨_, _, rfl, rfl, .inl ⟨rfl, by rw [reg h0]; rfl⟩⟩
  | opFx15 x | opFx18 x | opFx1E x | opFx29 x =>
    have hx : k ≠ x := by simpa [Instr.reads] using hi
    exact ⟨_, _, rfl, rfl, .inl ⟨rfl, by rw [reg hx]; rfl⟩⟩
  | op3xnn x nn | op4xnn x nn =>
    have hx : k ≠ x := by simpa [Instr.reads] using hi
    exact ⟨_, _, rfl, rfl, by rw [reg hx]; exact unread_skipIf _⟩
  | op5xy0 x y und | op9xy0 x y und =>
    obtain ⟨hx, hy⟩ : k ≠ x ∧ k ≠ y := by simpa [Instr.reads] using hi
    exact ⟨_, _, rfl, rfl, by rw [reg hx, reg hy]; exact unread_skipIf _⟩
  | op6xnn x nn | opCxnn x nn | opFx07 x =>
    exact ⟨_, _, rfl, rfl, unread_setReg (fun hk => writes_of_writesOperand (beq_iff_eq.2 hk)) rfl⟩
  | op7xnn x nn =>
    have hx : k ≠ x := by simpa [Instr.reads] using hi
    exact ⟨_, _, rfl, rfl, unread_setReg (absurd · hx) (by rw [reg hx])⟩
  | op8xy0 x y =>
    have hy : k ≠ y := by simpa [Instr.reads] using hi
    exact ⟨_, _, rfl, rfl, unread_setReg (fun hk => writes_of_writesOperand (beq_iff_eq.2 hk)) (reg hy)⟩
  | op8xy1 x y | op8xy2 x y | op8xy3 x y =>
    obtain ⟨hx, hy⟩ : k ≠ x ∧ k ≠ y := by simpa [Instr.reads] using hi
    exact ⟨_, _, rfl, rfl, unread_setReg (absurd · hx) (by rw [reg hx, reg hy])⟩
  | op8xy4 x y | op8xy5 x y | op8xy7 x y =>
    obtain ⟨hx, hy⟩ : k ≠ x ∧ k ≠ y := by simpa [Instr.reads] using hi
    exact ⟨_, _, rfl, rfl, unread_setResultAndFlag (absurd · hx) (fun hk => hk ▸ writes_vf rfl)
      (by rw [reg hx, reg hy]) (by rw [reg hx, reg hy])⟩
  | op8xy6 x y | op8xyE x y =>
    have hx : k ≠ x := by simpa [Instr.reads] using hi
    exact ⟨_, _, rfl, rfl, unread_setResultAndFlag (absurd · hx) (fun hk => hk ▸ writes_vf rfl)
      (by rw [reg hx]) (by rw [reg hx])⟩
  | opFx0A x =>
    cases hkey : s.input.anyKey with
    | none => exact ⟨_, _, exec_opFx0A_none x hkey, exec_opFx0A_none x hkey, .inl ⟨rfl, rfl⟩⟩
    | some key =>
      exact ⟨_, _, exec_opFx0A_some x hkey, exec_opFx0A_some x hkey,
        unread_setReg (fun hk => writes_of_writesOperand (beq_iff_eq.2 hk)) rfl⟩
  | op00EE und => exact unread_complete unreadResult_pop
  | op2nnn nnn => exact unread_complete (unreadResult_call _)
  | opEx9E x und =>
    have hx : k ≠ x := by simpa [Instr.reads] using hi
    exact unread_complete (reg hx ▸ unreadResult_keySkip _ id)
  | opExA1 x und =>
    have hx : k ≠ x := by simpa [Instr.reads] using hi
    exact unread_complete (reg hx ▸ unreadResult_keySkip _ not)
  | opDxyn x y n =>
    obtain ⟨hx, hy⟩ : k ≠ x ∧ k ≠ y := by simpa [Instr.reads] using hi
    exact unread_complete (unreadResult_loadAtI (unread_drawSprite _ hx hy fun hk => hk ▸ writes_vf rfl))
  | opFx65 x =>
    exact unread_complete (unreadResult_loadAtI
      (unread_loadRange x fun hk => writes_of_writesOperand (decide_eq_true hk)))
  | opFx33 x =>
    have hx : k ≠ x := by simpa [Instr.reads] using hi
    exact unread_complete (unreadResult_storeAtI (by rw [reg hx]))
  | opFx55 x =>
    have hx : x.val < k.val := Nat.lt_of_not_le (of_decide_eq_false hi)
    exact unread_complete (unreadResult_storeAtI (s.regsUpTo_setReg b hx))

/-- Settles O17: the second run's register is the first's, or the value put there. -/
theorem registersAreReadAsTheAccessTableSays : Obligations.RegistersAreReadAsTheAccessTableSays := by
  unfold Obligations.RegistersAreReadAsTheAccessTableSays
  intro i s k b hi
  obtain ⟨t, u, ht, hu, ⟨hreg, rfl⟩ | ⟨hw, rfl⟩⟩ := exec_unread i s k b hi
  · have hb : (t.setReg k b).reg k = b := t.reg_setReg_same k b
    exact ⟨t, _, ht, hu, by rw [hb], fun _ => hb, .inr ⟨hreg, hb⟩⟩
  · exact ⟨u, u, ht, hu, u.setReg_reg_self k, fun h => by simp [hw] at h, .inl rfl⟩

end Sys2Proof.Machine
end

section
/-! SUPPORT. The flag, the reset state, the inputs and the host's views (10_state.md R22, R33, R34, R36). -/

namespace Sys2Proof.Machine

/-! ## The flag -/

theorem State.setFlag_vf (s : State) (f : Bool) : (s.setFlag f).reg vf = 0x00#8 ∨ (s.setFlag f).reg vf = 0x01#8 := by
  rw [State.setFlag, State.reg_setReg_same]
  exact flagByte_cases f

theorem exec_opDxyn_error {s : State} (x y : RegIdx) {n : Fin 16} (h : 0 < n.val ∧ 0x1000 < s.i.toNat + n.val) :
    exec (.opDxyn x y n) s =
      .next (s.raise (s.pc - 2#16) (.boundsError (BitVec.ofNat 16 (max s.i.toNat 0x1000)))) := by
  simp only [exec, execDxyn, State.loadAtI_error h, Except.map, State.complete_error]

/-- Settles O18: each of the six writes `VF` last, by `setFlag`, or has taken a fatal error. -/
theorem flagIsZeroOrOne : Obligations.FlagIsZeroOrOne := by
  unfold Obligations.FlagIsZeroOrOne
  intro i s hi
  cases i with
  | op8xy4 x y | op8xy5 x y | op8xy6 x y | op8xy7 x y | op8xyE x y => exact ⟨_, rfl, fun _ => State.setFlag_vf _ _⟩
  | opDxyn x y n =>
    obtain ⟨h, -⟩ | ⟨h, -⟩ := s.loadAtI_cases n.val
    · exact ⟨_, exec_opDxyn_ok x y h, fun _ => State.setFlag_vf _ _⟩
    · exact ⟨_, exec_opDxyn_error x y h, nofun⟩
  | _ => cases hi

/-! ## The inputs -/

theorem CycleInput.anyKey_eq_none {inp : CycleInput} (h : ∀ k : Key, inp.keys[k] = false) : inp.anyKey = none := by
  cases hk : inp.anyKey with
  | none => rfl
  | some k => cases (h k).symm.trans (CycleInput.anyKey_some hk)

theorem CycleInput.anyKey_of_down {inp : CycleInput} (h : inp.keys[inp.keyChoice] = true) :
    inp.anyKey = some inp.keyChoice :=
  if_pos h

/-- Settles O58: the input whose choice is the key that is down reports it. -/
theorem anyKeyAgreesWithTheKeys : Obligations.AnyKeyAgreesWithTheKeys := by
  unfold Obligations.AnyKeyAgreesWithTheKeys
  refine ⟨fun inp => ⟨CycleInput.anyKey_none, CycleInput.anyKey_eq_none⟩, fun inp k => CycleInput.anyKey_some,
    fun keys rnd k s hk => ?_⟩
  exact ⟨⟨keys, k, rnd⟩, rfl, rfl, CycleInput.anyKey_of_down hk, s.input_present _⟩

/-! ## Reset -/

theorem Memory.background_font {d : Nat} (h : d < 80) :
    Config.font[d]? = some (Memory.background (0x050 + d)) := by
  have hlen : d < Config.font.length := h
  simp [Memory.background, Config.fontBase, List.getElem?_eq_getElem hlen]

theorem Memory.background_zero {a : Nat} (h : a < 0x050 ∨ 0x0A0 ≤ a) : Memory.background a = 0x00#8 := by
  unfold Memory.background
  obtain h | h := h
  · exact if_neg (Nat.not_le.2 h)
  · have hlen : Config.font.length ≤ a - Config.fontBase := Nat.le_sub_of_add_le h
    simp [List.getElem?_eq_none hlen]

@[simp] theorem State.reg_reset (k : RegIdx) : State.reset.reg k = 0x00#8 := by
  simp [State.reg, State.reset]

@[simp] theorem State.stack_reset (k : Fin 16) : State.reset.stack[k] = 0x0000#16 := by
  simp [State.reset]

/-- Settles O23: memory lists nothing at reset, so it reads as the font and zero; the rest are the reset values. -/
theorem resetState : Obligations.ResetState := by
  unfold Obligations.ResetState
  exact ⟨rfl, rfl, rfl, State.reg_reset, rfl, rfl, rfl, State.stack_reset, rfl, Framebuffer.pixel_blank, rfl, rfl, rfl,
    rfl, fun d => Memory.background_font, fun a => Memory.background_zero⟩

/-- Settles O24: memory lists nothing, the report is clear, and every return address is zero. -/
theorem invariantsHoldAtReset : Obligations.InvariantsHoldAtReset := by
  unfold Obligations.InvariantsHoldAtReset
  refine ⟨⟨rfl, fun _ => ⟨rfl, rfl, rfl⟩, nofun⟩, by decide, fun k => ?_⟩
  rw [State.stack_reset]
  decide

/-! ## The host's view of the display -/

theorem length_flatMap_of_length {α β : Type} {m : Nat} {f : α → List β} (hf : ∀ a, (f a).length = m)
    (l : List α) : (l.flatMap f).length = l.length * m := by
  induction l with
  | nil => rw [List.flatMap_nil, List.length_nil, List.length_nil, Nat.zero_mul]
  | cons a l ih => rw [List.flatMap_cons, List.length_append, hf, ih, List.length_cons, Nat.succ_mul, Nat.add_comm]

/-- Entry `i * m + j` of a concatenation of parts that are all `m` long is entry `j` of part `i`. -/
theorem getElem?_flatMap_of_length {α β : Type} {m : Nat} {f : α → List β} (hf : ∀ a, (f a).length = m)
    (l : List α) (i : Nat) {j : Nat} (hj : j < m) :
    (l.flatMap f)[i * m + j]? = (l[i]?).bind fun a => (f a)[j]? := by
  induction l generalizing i with
  | nil => rfl
  | cons a l ih =>
    rw [List.flatMap_cons]
    cases i with
    | zero =>
      rw [Nat.zero_mul, Nat.zero_add, List.getElem?_append_left (by rw [hf]; exact hj)]
      rfl
    | succ i =>
      rw [List.getElem?_append_right (by rw [hf, Nat.succ_mul]; omega), hf,
        show (i + 1) * m + j - m = i * m + j by rw [Nat.succ_mul]; omega]
      exact ih i

theorem State.length_framebufferView (s : State) : s.framebufferView.length = 2048 := by
  rw [State.framebufferView, length_flatMap_of_length (m := 64) (by simp), Vector.length_toList]

theorem State.framebufferView_getElem? (s : State) {px py : Nat} (hx : px < 64) (hy : py < 32) :
    s.framebufferView[py * 64 + px]? = some (pixelByte (s.fb.pixel px py)) := by
  rw [State.framebufferView, getElem?_flatMap_of_length (by simp) _ _ hx]
  simp [Framebuffer.pixel, hx, hy, Nat.mod_eq_of_lt]

/-- Settles O60: the view is 32 rows of 64 bytes, so pixel (`px`, `py`) is byte `px` of row `py`. -/
theorem hostViewsAndReset : Obligations.HostViewsAndReset := by
  unfold Obligations.HostViewsAndReset
  intro s
  exact ⟨s.length_framebufferView, fun px py hx hy => s.framebufferView_getElem? hx hy,
    decide_eq_true_iff, rfl, rfl⟩

end Sys2Proof.Machine
end

section
/-!
SUPPORT. Memory as the instructions see it (20_memory.md R60, R64, R65, R75): who changes it, what a stored register
reads back as, and the one-byte primitives.
-/

namespace Sys2Proof.Machine

/-- R60: an effect that is no store leaves memory as it is. -/
theorem Effect.mem_eq {s t : State} {i : Instr} (h : Effect s i t) (hi : ¬ StoresBytes i) : t.mem = s.mem := by
  cases h with
  | store bytes hs _ => exact absurd hs hi
  | _ => rfl

/-- Settles O20: the only effect that changes memory is a store. -/
theorem onlyStoresChangeMemory : Obligations.OnlyStoresChangeMemory := by
  unfold Obligations.OnlyStoresChangeMemory
  intro i s hbcd hregs
  have hi : ¬ StoresBytes i := by
    rintro (⟨x, rfl⟩ | ⟨x, rfl⟩)
    · exact hbcd x rfl
    · exact hregs x rfl
  obtain ⟨t, ht, heff⟩ := exec_effect i s
  have hmem := heff.mem_eq hi
  exact ⟨t, ht, hmem, fun a => by rw [hmem]⟩

/-- R194: register `k` of the stored range stands `k` bytes above the base. -/
theorem State.read_writeBytes_regsUpTo (s : State) {x k : RegIdx} (hm : s.mem.wf = true)
    (hfit : s.i.toNat + x.val ≤ 0x0FFF) (hk : k ≤ x) :
    (s.mem.writeBytes s.i.toNat (s.regsUpTo x)).read (s.i.toNat + k.val) = s.reg k := by
  have hlen : k.val < (s.regsUpTo x).length := by rw [State.length_regsUpTo]; exact Nat.lt_succ_of_le hk
  rw [Memory.read_writeBytes_inside hm _ _ (by rw [State.length_regsUpTo]; omega) _ hlen, State.regsUpTo_getElem]

/-- R122: the fetch from an address in memory gives the two bytes read there, the first high. -/
theorem State.fetch_of_read {s : State} {a : Nat} {hi lo : Byte} (hpc : s.pc.toNat = a) (ha : a ≤ 0x0FFE)
    (hhi : s.mem.read a = hi) (hlo : s.mem.read (a + 1) = lo) : s.fetch = .ok (wordOfBytes hi lo) := by
  subst hpc hhi hlo
  exact State.fetch_ok ha

/-- Settles O49: `PC` and `PC + 1` are the addresses of registers `k` and `k + 1` of the stored range. -/
theorem nextFetchSeesTheStoredBytes : Obligations.NextFetchSeesTheStoredBytes := by
  unfold Obligations.NextFetchSeesTheStoredBytes
  simp only [State.base]
  intro x k j s hm hfit hj hjk hpc
  have hjx : k.val + 1 ≤ x.val := hjk ▸ hj
  have hk : k ≤ x := Nat.le_of_succ_le hjx
  have hlast : s.i.toNat + k.val ≤ 0x0FFE := by omega
  refine ⟨_, exec_opFx55_ok (by omega), State.fetch_of_read hpc hlast (s.read_writeBytes_regsUpTo hm hfit hk) ?_⟩
  rw [Nat.add_assoc, ← hjk]
  exact s.read_writeBytes_regsUpTo hm hfit hj

/-- R64: a one-byte access above 0x0FFF reports its own address. -/
theorem memRead_one_error (m : Memory) {a : Nat} (ha : 0x0FFF < a) :
    memRead m a 1 = .error (.boundsError (BitVec.ofNat 16 a)) := by
  rw [memRead_error (by omega), Nat.max_eq_left ha]

/-- R65: a one-byte access above 0x0FFF reports its own address. -/
theorem memWrite_one_error (m : Memory) {a : Nat} (v : Byte) (ha : 0x0FFF < a) :
    memWrite m a [v] = .error (.boundsError (BitVec.ofNat 16 a)) := by
  rw [memWrite_error (by rw [List.length_singleton]; omega), Nat.max_eq_left ha]

/-- Settles O50: the check of one address, then the read or the write of a canonical memory; and the two bytes of a
fetch. -/
theorem memReadAndMemWrite : Obligations.MemReadAndMemWrite := by
  unfold Obligations.MemReadAndMemWrite
  refine ⟨fun m a v hm _ => ⟨fun ha => ⟨memRead_one_error m ha, memWrite_one_error m v ha⟩, fun ha => ?_⟩,
    fun s hpc => State.fetch_ok hpc⟩
  have hlt : a < 4096 := by omega
  exact ⟨memRead_ok (.inr hlt), m.write a v, memWrite_ok (.inr hlt), Memory.wf_write hm v hlt,
    fun b => Memory.read_write hm a b v⟩

end Sys2Proof.Machine
end

section
/-!
SUPPORT. Encoding and decoding (30_encoding.md R91 to R106): what decoding can answer, said once, and the rows of the
opcode map read as the shapes of their words.
-/

namespace Sys2Proof

open Laws

/-! ## A word from the fields a decoder tests and the operands it reads -/

theorem word_eq_nnn {w : Word} {k : BitVec 4} (ho : opOf w = k) : (k ++ nnnOf w : Word) = w :=
  ho ▸ word_of_nnn w

theorem word_eq_xnn {w : Word} {k : BitVec 4} (ho : opOf w = k) : (k ++ nibble (xOf w) ++ nnOf w : Word) = w :=
  ho ▸ word_of_xnn w

theorem word_eq_xss {w : Word} {k : BitVec 4} {l : Byte} (h : opOf w = k ∧ nnOf w = l) :
    (k ++ nibble (xOf w) ++ l : Word) = w :=
  h.2 ▸ word_eq_xnn h.1

theorem word_eq_xyn {w : Word} {k : BitVec 4} (ho : opOf w = k) :
    (k ++ nibble (xOf w) ++ yDigitOf w ++ lowNibbleOf w : Word) = w :=
  ho ▸ word_of_xyn w

theorem word_eq_xys {w : Word} {k l : BitVec 4} (h : opOf w = k ∧ lowNibbleOf w = l) :
    (k ++ nibble (xOf w) ++ yDigitOf w ++ l : Word) = w :=
  h.2 ▸ word_eq_xyn h.1

theorem word_eq_z {w : Word} {k l : BitVec 4} (h : opOf w = k ∧ lowNibbleOf w = l) :
    (k ++ midOf w ++ l : Word) = w :=
  h.1 ▸ h.2 ▸ word_of_z w

/-! ## What decoding can answer -/

/-- The answers a decoder may give for a word: an instruction whose word it is, or its rejection by name (R100). -/
inductive Answers (w : Word) : Except Reject Instr → Prop
  | handler (i : Instr) (h : encode i = w) : Answers w (.ok i)
  | noHandler : Answers w (.error (.noHandler w))

theorem decodeFamily0_answers {w : Word} (ho : opOf w = 0x0#4) : Answers w (decodeFamily0 w) := by
  unfold decodeFamily0
  split
  case h_3 => exact .noHandler
  all_goals next hl => exact .handler _ (word_eq_z ⟨ho, hl⟩)

theorem decodeFamily8_answers {w : Word} (ho : opOf w = 0x8#4) : Answers w (decodeFamily8 w) := by
  unfold decodeFamily8
  split
  case h_10 => exact .noHandler
  all_goals next hl => exact .handler _ (word_eq_xys ⟨ho, hl⟩)

theorem decodeFamilyE_answers {w : Word} (ho : opOf w = 0xE#4) : Answers w (decodeFamilyE w) := by
  unfold decodeFamilyE
  split
  case h_3 => exact .noHandler
  all_goals next hl => exact .handler _ (word_eq_xys ⟨ho, hl⟩)

theorem decodeFamilyF_answers {w : Word} (ho : opOf w = 0xF#4) : Answers w (decodeFamilyF w) := by
  unfold decodeFamilyF
  split
  case h_10 => exact .noHandler
  all_goals next hl => exact .handler _ (word_eq_xss ⟨ho, hl⟩)

/-- The families with one level name the instruction at once, each in the format of its word (R92); the other four
leave it to their second level (R94). -/
theorem decode_answers (w : Word) : Answers w (decode w) := by
  unfold decode
  split
  case h_1 ho => exact decodeFamily0_answers ho
  case h_9 ho => exact decodeFamily8_answers ho
  case h_15 ho => exact decodeFamilyE_answers ho
  case h_16 =>
    have ho : opOf w = 0xF#4 := by
      have hd := digit_cases (opOf w)
      simp_all only [imp_false, false_or]
    exact decodeFamilyF_answers ho
  case h_2 ho | h_3 ho | h_11 ho | h_12 ho => exact .handler _ (word_eq_nnn ho)
  case h_4 ho | h_5 ho | h_7 ho | h_8 ho | h_13 ho => exact .handler _ (word_eq_xnn ho)
  case h_6 ho | h_10 ho | h_14 ho => exact .handler _ (word_eq_xyn ho)

theorem encode_of_decode {w : Word} {i : Instr} (h : decode w = .ok i) : encode i = w := by
  have ha := decode_answers w
  rw [h] at ha
  cases ha
  assumption

theorem noHandler_of_decode {w : Word} {r : Reject} (h : decode w = .error r) : r = .noHandler w := by
  have ha := decode_answers w
  rw [h] at ha
  cases ha
  rfl

/-- R91, R92: the lemmas of `RoundTrip`, one for each constructor. -/
theorem decode_encode (i : Instr) : decode (encode i) = .ok i :=
  open RoundTrip in
  i.rec (motive := Statement) op00E0 op00EE op1nnn op2nnn op3xnn op4xnn op5xy0 op6xnn op7xnn op8xy0 op8xy1 op8xy2
    op8xy3 op8xy4 op8xy5 op8xy6 op8xy7 op8xyE op9xy0 opAnnn opBnnn opCxnn opDxyn opEx9E opExA1 opFx07 opFx0A opFx15
    opFx18 opFx1E opFx29 opFx33 opFx55 opFx65

/-! ## The rows of the opcode map (R106) -/

/-- The lemmas of `FitsRow`, one for each constructor. -/
theorem row_accepts_encode (i : Instr) : i.row.accepts (encode i) = true :=
  open FitsRow in
  i.rec (motive := Statement) op00E0 op00EE op1nnn op2nnn op3xnn op4xnn op5xy0 op6xnn op7xnn op8xy0 op8xy1 op8xy2
    op8xy3 op8xy4 op8xy5 op8xy6 op8xy7 op8xyE op9xy0 opAnnn opBnnn opCxnn opDxyn opEx9E opExA1 opFx07 opFx0A opFx15
    opFx18 opFx1E opFx29 opFx33 opFx55 opFx65

section Rows

variable {w : Word} {k : BitVec 4}

theorem op_of_accepts (h : (w &&& 0xF000#16 == (k ++ 0x000#12 : Word)) = true) : opOf w = k :=
  (accepts_op w k).1 (beq_iff_eq.1 h)

theorem op_low_of_accepts {l : BitVec 4} (h : (w &&& 0xF00F#16 == (k ++ 0x00#8 ++ l : Word)) = true) :
    opOf w = k ∧ lowNibbleOf w = l :=
  (accepts_op_low w k l).1 (beq_iff_eq.1 h)

theorem op_nn_of_accepts {l : Byte} (h : (w &&& 0xF0FF#16 == (k ++ 0x0#4 ++ l : Word)) = true) :
    opOf w = k ∧ nnOf w = l :=
  (accepts_op_nn w k l).1 (beq_iff_eq.1 h)

end Rows

/-- The instruction of a row with the operands a word holds in the row's fields. -/
def Instr.withOperandsOf (w : Word) : Instr → Instr
  | .op00E0 _ => .op00E0 (midOf w)
  | .op00EE _ => .op00EE (midOf w)
  | .op1nnn _ => .op1nnn (nnnOf w)
  | .op2nnn _ => .op2nnn (nnnOf w)
  | .op3xnn _ _ => .op3xnn (xOf w) (nnOf w)
  | .op4xnn _ _ => .op4xnn (xOf w) (nnOf w)
  | .op5xy0 _ _ _ => .op5xy0 (xOf w) (yOf w) (lowNibbleOf w)
  | .op6xnn _ _ => .op6xnn (xOf w) (nnOf w)
  | .op7xnn _ _ => .op7xnn (xOf w) (nnOf w)
  | .op8xy0 _ _ => .op8xy0 (xOf w) (yOf w)
  | .op8xy1 _ _ => .op8xy1 (xOf w) (yOf w)
  | .op8xy2 _ _ => .op8xy2 (xOf w) (yOf w)
  | .op8xy3 _ _ => .op8xy3 (xOf w) (yOf w)
  | .op8xy4 _ _ => .op8xy4 (xOf w) (yOf w)
  | .op8xy5 _ _ => .op8xy5 (xOf w) (yOf w)
  | .op8xy6 _ _ => .op8xy6 (xOf w) (yOf w)
  | .op8xy7 _ _ => .op8xy7 (xOf w) (yOf w)
  | .op8xyE _ _ => .op8xyE (xOf w) (yOf w)
  | .op9xy0 _ _ _ => .op9xy0 (xOf w) (yOf w) (lowNibbleOf w)
  | .opAnnn _ => .opAnnn (nnnOf w)
  | .opBnnn _ => .opBnnn (nnnOf w)
  | .opCxnn _ _ => .opCxnn (xOf w) (nnOf w)
  | .opDxyn _ _ _ => .opDxyn (xOf w) (yOf w) (nOf w)
  | .opEx9E _ _ => .opEx9E (xOf w) (yDigitOf w)
  | .opExA1 _ _ => .opExA1 (xOf w) (yDigitOf w)
  | .opFx07 _ => .opFx07 (xOf w)
  | .opFx0A _ => .opFx0A (xOf w)
  | .opFx15 _ => .opFx15 (xOf w)
  | .opFx18 _ => .opFx18 (xOf w)
  | .opFx1E _ => .opFx1E (xOf w)
  | .opFx29 _ => .opFx29 (xOf w)
  | .opFx33 _ => .opFx33 (xOf w)
  | .opFx55 _ => .opFx55 (xOf w)
  | .opFx65 _ => .opFx65 (xOf w)

theorem row_withOperandsOf (w : Word) (j : Instr) : (j.withOperandsOf w).row = j.row := by
  cases j <;> rfl

/-- A word that a row accepts is the word of an instruction of that row, by the fields its mask keeps. -/
theorem encode_withOperandsOf {w : Word} {j : Instr} (h : j.row.accepts w = true) :
    encode (j.withOperandsOf w) = w := by
  cases j with
  | op00E0 | op00EE => exact word_eq_z (op_low_of_accepts h)
  | op1nnn | op2nnn | opAnnn | opBnnn => exact word_eq_nnn (op_of_accepts h)
  | op3xnn | op4xnn | op6xnn | op7xnn | opCxnn => exact word_eq_xnn (op_of_accepts h)
  | op5xy0 | op9xy0 | opDxyn => exact word_eq_xyn (op_of_accepts h)
  | op8xy0 | op8xy1 | op8xy2 | op8xy3 | op8xy4 | op8xy5 | op8xy6 | op8xy7 | op8xyE | opEx9E | opExA1 =>
    exact word_eq_xys (op_low_of_accepts h)
  | opFx07 | opFx0A | opFx15 | opFx18 | opFx1E | opFx29 | opFx33 | opFx55 | opFx65 =>
    exact word_eq_xss (op_nn_of_accepts h)

/-- A word that a row accepts decodes, to an instruction of that row. -/
theorem decode_of_accepts {w : Word} {j : Instr} (h : j.row.accepts w = true) :
    decode w = .ok (j.withOperandsOf w) := by
  have hd := decode_encode (j.withOperandsOf w)
  rwa [encode_withOperandsOf h] at hd

/-! ## The statements of the two directions and of the map -/

/-- Settles O1, constructor by constructor. -/
theorem decodeOfEncodeIsTheInstruction : Obligations.DecodeOfEncodeIsTheInstruction := by
  unfold Obligations.DecodeOfEncodeIsTheInstruction
  exact decode_encode

/-- Settles O2: the two levels of decode answer only with an instruction whose word was read. -/
theorem encodeOfDecodedWordIsTheWord : Obligations.EncodeOfDecodedWordIsTheWord := by
  unfold Obligations.EncodeOfDecodedWordIsTheWord
  exact fun _ _ => encode_of_decode

/-- Settles O3: a row that accepts the word is the row of the one instruction the word decodes to. -/
theorem decodeFollowsTheOpcodeMap : Obligations.DecodeFollowsTheOpcodeMap := by
  unfold Obligations.DecodeFollowsTheOpcodeMap
  intro w
  cases hw : decode w with
  | ok i =>
    refine .inl ⟨i, rfl, fun j => ⟨fun h => ?_, fun h => ?_⟩⟩
    · have hi : j.withOperandsOf w = i := Except.ok.inj ((decode_of_accepts h).symm.trans hw)
      rw [← hi, row_withOperandsOf]
    · rw [h, ← encode_of_decode hw]
      exact row_accepts_encode i
  | error r =>
    refine .inr ⟨congrArg _ (noHandler_of_decode hw), fun j => Bool.eq_false_iff.2 fun h => ?_⟩
    cases (decode_of_accepts h).symm.trans hw

end Sys2Proof
end

section
/-!
SUPPORT. The second level of decode (30_encoding.md R95 to R98) and the printed patterns (R101, R102).
-/

namespace Sys2Proof

/-! ## The second level -/

section SecondLevel

variable {w : Word}

theorem decode_family0 (ho : opOf w = 0x0#4) : decode w = decodeFamily0 w := by simp only [decode, ho]

theorem decode_family8 (ho : opOf w = 0x8#4) : decode w = decodeFamily8 w := by simp only [decode, ho]

theorem decode_familyE (ho : opOf w = 0xE#4) : decode w = decodeFamilyE w := by simp only [decode, ho]

theorem decode_familyF (ho : opOf w = 0xF#4) : decode w = decodeFamilyF w := by simp [decode, ho]

theorem decodeFamily0_noHandler (hl : lowNibbleOf w ∉ [0x0#4, 0xE#4]) :
    decodeFamily0 w = .error (.noHandler w) := by
  unfold decodeFamily0
  split
  case h_3 => rfl
  all_goals next h => exact absurd (h ▸ hl) (by decide)

theorem decodeFamily8_noHandler (hl : lowNibbleOf w ∈ [0x8#4, 0x9#4, 0xA#4, 0xB#4, 0xC#4, 0xD#4, 0xF#4]) :
    decodeFamily8 w = .error (.noHandler w) := by
  unfold decodeFamily8
  split
  case h_10 => rfl
  all_goals next h => exact absurd (h ▸ hl) (by decide)

theorem decodeFamilyE_noHandler (hl : lowNibbleOf w ∉ [0xE#4, 0x1#4]) :
    decodeFamilyE w = .error (.noHandler w) := by
  unfold decodeFamilyE
  split
  case h_3 => rfl
  all_goals next h => exact absurd (h ▸ hl) (by decide)

theorem decodeFamilyF_noHandler
    (hl : nnOf w ∉ [0x07#8, 0x0A#8, 0x15#8, 0x18#8, 0x1E#8, 0x29#8, 0x33#8, 0x55#8, 0x65#8]) :
    decodeFamilyF w = .error (.noHandler w) := by
  unfold decodeFamilyF
  split
  case h_10 => rfl
  all_goals next h => exact absurd (h ▸ hl) (by decide)

end SecondLevel

/-- Settles O4: the family fixes the second level, and the sub-opcode its branch. -/
theorem secondLevelDecodeSelectsHandlers : Obligations.SecondLevelDecodeSelectsHandlers := by
  unfold Obligations.SecondLevelDecodeSelectsHandlers
  refine ⟨fun w ho => ?_, fun w ho => ?_, fun w ho => ?_, fun w ho => ?_⟩
  · rw [decode_family0 ho]
    refine ⟨?_, ?_, decodeFamily0_noHandler⟩ <;> intro hl <;> simp only [decodeFamily0, hl]
  · rw [decode_family8 ho]
    refine ⟨?_, ?_, ?_, ?_, ?_, ?_, ?_, ?_, ?_, decodeFamily8_noHandler⟩ <;> intro hl <;>
      simp only [decodeFamily8, hl]
  · rw [decode_familyE ho]
    refine ⟨?_, ?_, decodeFamilyE_noHandler⟩ <;> intro hl <;> simp only [decodeFamilyE, hl]
  · rw [decode_familyF ho]
    refine ⟨?_, ?_, ?_, ?_, ?_, ?_, ?_, ?_, ?_, decodeFamilyF_noHandler⟩ <;> intro hl <;>
      simp only [decodeFamilyF, hl]

/-! ## The printed patterns and the canonical form -/

/-- Format Z prints every digit of the word. -/
theorem prints_z (h l : BitVec 4) (mid e : BitVec 8) :
    (mid == e) = true ↔ ((h ++ mid ++ l : Word) &&& 0xFFFF#16 == (h ++ e ++ l : Word)) = true := by
  have hall : (h ++ mid ++ l : Word) &&& 0xFFFF#16 = h ++ mid ++ l := BitVec.and_allOnes
  rw [beq_iff_eq, beq_iff_eq, hall, append_inj, append_inj]
  simp

/-- Format XY prints the family and the low digit, which the decoder does not look at. -/
theorem prints_xy (h x y n e : BitVec 4) :
    (n == e) = true ↔ ((h ++ x ++ y ++ n : Word) &&& 0xF00F#16 == (h ++ 0x00#8 ++ e : Word)) = true := by
  rw [beq_iff_eq, beq_iff_eq, accepts_op_low, opOf_xyn, lowNibbleOf_xyn]
  simp

theorem nnOf_xyn (h x y n : BitVec 4) : nnOf (h ++ x ++ y ++ n) = y ++ n := by
  have hj : yDigitOf (h ++ x ++ y ++ n) ++ lowNibbleOf (h ++ x ++ y ++ n) = nnOf (h ++ x ++ y ++ n) :=
    extract_join (h ++ x ++ y ++ n : Word) 0 4 4
  rw [← hj, yDigitOf_xyn, lowNibbleOf_xyn]

/-- Format XS prints the low byte, of which the decoder looks at the low digit. -/
theorem prints_xs (h x y n e : BitVec 4) :
    (y == e) = true ↔ ((h ++ x ++ y ++ n : Word) &&& 0xF0FF#16 == (h ++ 0x0#4 ++ (e ++ n) : Word)) = true := by
  rw [beq_iff_eq, beq_iff_eq, accepts_op_nn, opOf_xyn, nnOf_xyn, append_inj]
  simp

/-- A row without undecoded digits prints what the decoder tests; the other six print their digit or digits too. -/
theorem wellFormed_iff_prints (i : Instr) : i.wellFormed = true ↔ i.row.prints (encode i) = true := by
  cases i with
  | op00E0 und | op00EE und => exact prints_z _ _ und _
  | op5xy0 x y und | op9xy0 x y und => exact prints_xy _ (nibble x) (nibble y) und _
  | opEx9E x und | opExA1 x und => exact prints_xs _ (nibble x) und _ _
  | _ => exact iff_of_true rfl (row_accepts_encode _)

theorem canonical_wellFormed (i : Instr) : i.canonical.wellFormed = true := by
  cases i <;> rfl

theorem canonical_row (i : Instr) : i.canonical.row = i.row := by
  cases i <;> rfl

theorem canonical_eq_of_wellFormed {i : Instr} (h : i.wellFormed = true) : i.canonical = i := by
  cases i with
  | op00E0 und | op00EE und | op5xy0 x y und | op9xy0 x y und | opEx9E x und | opExA1 x und =>
    rw [beq_iff_eq.1 h]
    rfl
  | _ => rfl

/-- No meaning reads an undecoded digit (R101). -/
theorem exec_canonical (i : Instr) (s : Machine.State) : Machine.exec i s = Machine.exec i.canonical s := by
  cases i <;> rfl

/-- Settles O5: the printed pattern by the row's mask, the rest by the canonical form of each instruction. -/
theorem aliasWordsRunAsTheCanonicalInstruction : Obligations.AliasWordsRunAsTheCanonicalInstruction := by
  unfold Obligations.AliasWordsRunAsTheCanonicalInstruction
  exact fun i => ⟨wellFormed_iff_prints i, canonical_wellFormed i, canonical_row i, canonical_eq_of_wellFormed,
    exec_canonical i⟩

/-- Settles O6: the decoder evaluated on each word. -/
theorem writtenOutWordsDecode : Obligations.WrittenOutWordsDecode := by
  unfold Obligations.WrittenOutWordsDecode
  exact ⟨rfl, rfl, rfl, rfl, rfl, rfl, rfl, rfl, rfl, rfl, rfl, rfl, rfl, rfl, rfl, rfl⟩

end Sys2Proof
end

section
/-!
SUPPORT. The cycle (40_cycle.md R121 to R128): what a cycle request answers in each of its cases, and what the end of a
cycle leaves as it was.
-/

namespace Sys2Proof.Machine

section Cycle

variable {s t : State}

/-! ## The ends of a cycle, as updates of the state -/

/-- R33: using up the cycle's inputs moves the model's own two fields alone. -/
theorem State.consumeInput_eq (s : State) :
    s.consumeInput = { s with inputs := s.consumeInput.inputs, draws := s.consumeInput.draws } := by
  unfold State.consumeInput
  split <;> rfl

theorem State.finish_eq (s : State) (w : Word) (e : Option Word) :
    s.finish w e = { s with
      dt := tickTimer s.dt, st := tickTimer s.st, ir := w, warn := e,
      inputs := (s.finish w e).inputs, draws := (s.finish w e).draws } :=
  State.consumeInput_eq _

theorem State.abandon_eq (s : State) :
    s.abandon = { s with warn := none, inputs := s.abandon.inputs, draws := s.abandon.draws } :=
  State.consumeInput_eq _

/-- R255: a fatal error of the execute phase is taken at the word's own address, and `PC = npc` leaves no trace. -/
theorem State.raise_advance (s : State) (f : Fault) : s.advance.raise (s.advance.pc - 2#16) f = s.raise s.pc f := by
  rw [State.pc_advance, BitVec.add_sub_cancel]
  rfl

/-- R251, R256: the cause code and the value of a fatal error, in the numbers the fault report holds. -/
theorem Fault.Reports.code_info {f : Fault} (h : f.Reports s) :
    (f.code = 2#3 ∧ (0x1000 ≤ f.info.toNat ∨ 16 ≤ f.info.toNat ∧ f.info.toNat ≤ 255)) ∨
    (f.code = 3#3 ∧ f.info.toNat = s.sp.val ∧ (s.sp.val = 0 ∨ s.sp.val = 16)) := by
  cases f with
  | boundsError a => exact .inl ⟨rfl, h⟩
  | stackError n => exact .inr ⟨rfl, h⟩

/-- R122, R256: the lowest address outside memory of a pair that a fetch cannot read. -/
theorem fetchInfo {a : Word} (h : 0x0FFE < a.toNat) :
    BitVec.ofNat 16 (max a.toNat 0x1000) = if a = 0x0FFF#16 then 0x1000#16 else a := by
  rw [rangeInfo]
  by_cases ha : a = 0x0FFF#16
  · subst ha
    rfl
  · rw [if_neg ha, if_pos (by bv_omega)]

/-! ## What a cycle request answers -/

theorem step_faulted (hr : s.run = .faulted) : step s = .next s := by
  simp only [step, hr]

theorem step_fetch_error (hr : s.run = .running) (hp : 0x0FFE < s.pc.toNat) :
    step s = .next (s.raise s.pc (.boundsError (BitVec.ofNat 16 (max s.pc.toNat 0x1000)))).abandon := by
  simp only [step, hr, State.fetch_error hp]

theorem step_noHandler {w : Word} {r : Reject} (hr : s.run = .running) (hp : s.pc.toNat ≤ 0x0FFE)
    (hw : w = wordOfBytes (s.mem.read s.pc.toNat) (s.mem.read (s.pc.toNat + 1))) (hd : decode w = .error r) :
    step s = .next (s.advance.finish w (some w)) := by
  subst hw
  simp only [step, hr, State.fetch_ok hp, hd]

/-- R126, R127: a cycle that fetched `w` and left the core running ended in the timer tick, after the no-op of a word
with no handler or after the execute phase of the instruction. -/
theorem step_completed_cases {w : Word} (hr : s.run = .running) (hp : s.pc.toNat ≤ 0x0FFE)
    (hw : w = wordOfBytes (s.mem.read s.pc.toNat) (s.mem.read (s.pc.toNat + 1))) (hstep : step s = .next t)
    (ht : t.run = .running) :
    (∃ r, decode w = .error r ∧ t = s.advance.finish w (some w)) ∨
    ∃ i u, decode w = .ok i ∧ exec i s.advance = .next u ∧ t = u.finish w none := by
  cases hd : decode w with
  | error r =>
    rw [step_noHandler hr hp hw hd] at hstep
    exact .inl ⟨r, rfl, (Host.Outcome.next.inj hstep).symm⟩
  | ok i =>
    subst hw
    obtain ⟨u, hu⟩ := exec_next i s.advance
    rw [step_run hr hp hd hu] at hstep
    obtain rfl := Host.Outcome.next.inj hstep
    refine .inr ⟨i, u, rfl, hu, ?_⟩
    cases hrun : u.run with
    | running => exact State.endCycle_running _ hrun
    | faulted => simp [State.endCycle_faulted _ hrun, hrun] at ht

/-- R127, R255: a cycle that failed is its fetch's fatal error or its execute phase's, taken at `PC` and abandoned;
every other way of `step_cases` leaves a running core running. -/
theorem step_failed (hr : s.run = .running) (hstep : step s = .next t) (ht : t.run = .faulted) :
    ∃ f : Fault, f.Reports s ∧ t = (s.raise s.pc f).abandon := by
  obtain ⟨hf, -⟩ | ⟨-, -, h⟩ | ⟨-, -, w, -, -, -, rfl⟩ | ⟨-, -, w, i, u, -, -, hexec, h⟩ := step_cases hstep
  · simp [hr] at hf
  · exact ⟨.boundsError _, .inl (rangeInfo_ge s.pc), h⟩
  · simp [hr] at ht
  · obtain ⟨hrun, -⟩ | ⟨f, hf, rfl⟩ := exec_cases hexec
    · have hu : u.run = .running := hrun.trans hr
      simp [h, State.endCycle_running w hu, hu] at ht
    · rw [State.raise_advance, State.endCycle_faulted w (s.run_raise s.pc f)] at h
      exact ⟨f, hf, h⟩

/-- A machine whose next step is known, one step on. -/
theorem run_succ_of_step {M : Host.Core} {a b : M.State} (h : M.step a = .next b) (k : Nat) :
    M.run (k + 1) a = M.run k b := by
  simp only [Host.Core.run, h]

end Cycle

/-! ## The statements -/

/-- Settles O12: the execute phase leaves each timer alone but for its one writer, and the end of the cycle ticks. -/
theorem timersTickOncePerCompletedCycle : Obligations.TimersTickOncePerCompletedCycle := by
  unfold Obligations.TimersTickOncePerCompletedCycle
  intro s t w hr hp hw hstep ht
  obtain ⟨r, hd, rfl⟩ | ⟨i, u, hd, hu, rfl⟩ := step_completed_cases hr hp hw hstep ht
  · simp [hd, tickTimer_toNat]
  · simp only [State.dt_finish, State.st_finish, State.reg_finish, tickTimer_toNat, hd, Except.ok.injEq]
    have heff := effect_of_exec hu
    refine ⟨fun hi => ?_, ?_, fun hi => ?_, ?_, ?_⟩
    · rw [heff.dt_eq fun x h => hi x (congrArg Except.ok h), State.dt_advance]
    · rintro x rfl
      obtain rfl := Host.Outcome.next.inj hu
      rfl
    · rw [heff.st_eq fun x h => hi x (congrArg Except.ok h), State.st_advance]
    · rintro x rfl
      obtain rfl := Host.Outcome.next.inj hu
      rfl
    · rintro x rfl
      obtain rfl := Host.Outcome.next.inj hu
      exact State.reg_setReg_same _ x _

/-- Settles O13: the failed cycle is a fatal error taken at `PC` (`step_failed`), and its end moves the model's own
fields. -/
theorem failedCycleCommitsOnlyTheReport : Obligations.FailedCycleCommitsOnlyTheReport := by
  unfold Obligations.FailedCycleCommitsOnlyTheReport
  intro s t hr hstep ht
  obtain ⟨f, hf, rfl⟩ := step_failed hr hstep ht
  refine ⟨?_, fun a => by simp, by simpa using hf.code_info⟩
  simpa [State.raise] using State.abandon_eq (s.raise s.pc f)

/-- Settles O7: the execute phase answers a state, and the cycle ends by its run state. -/
theorem stepRunsTheDecodedInstruction : Obligations.StepRunsTheDecodedInstruction := by
  unfold Obligations.StepRunsTheDecodedInstruction
  rintro s i w hr hp rfl hd
  obtain ⟨t, ht⟩ := exec_next i s.advance
  have hstep := step_run hr hp hd ht
  refine ⟨t, ht, fun hrun => ?_, fun hfault => ?_⟩
  · rw [hstep, State.endCycle_running _ hrun]
    rfl
  · rw [hstep, State.endCycle_faulted _ hfault]
    rfl

/-- Settles O8: the fetch's fatal error is taken at `PC`, with the value of `fetchInfo`. -/
theorem fetchOutsideMemoryIsABoundsError : Obligations.FetchOutsideMemoryIsABoundsError := by
  unfold Obligations.FetchOutsideMemoryIsABoundsError
  intro s hr hp
  refine ⟨s.raise s.pc (.boundsError (BitVec.ofNat 16 (max s.pc.toNat 0x1000))), ⟨?_, fun _ => rfl⟩,
    step_fetch_error hr hp⟩
  rw [fetchInfo hp]
  rfl

/-- Settles O9: the cycle is `finish` alone, from the state with `PC` advanced. -/
theorem unhandledWordIsANoOpWithWarning : Obligations.UnhandledWordIsANoOpWithWarning := by
  unfold Obligations.UnhandledWordIsANoOpWithWarning
  intro s w hr hp hw hd
  refine ⟨_, step_noHandler hr hp hw hd, by simp, by simp, by simp, by simp [tickTimer_toNat],
    by simp [tickTimer_toNat], fun a => by simp, ?_⟩
  simpa using State.finish_eq s.advance w (some w)

/-- Settles O10, by induction on the number of requests. -/
theorem faultedCoreIgnoresCycleRequests : Obligations.FaultedCoreIgnoresCycleRequests := by
  unfold Obligations.FaultedCoreIgnoresCycleRequests
  intro s k hr
  have hstep : Sys2Proof.core.step s = .next s := step_faulted hr
  induction k with
  | zero => rfl
  | succ k ih =>
    rw [run_succ_of_step hstep]
    exact ih

end Sys2Proof.Machine
end

section
/-!
SUPPORT. The inputs of a cycle in the execute phase (40_cycle.md R130): one run beside another whose inputs differ in
what the instruction does not read.
-/

namespace Sys2Proof.Machine

/-- The state with other inputs to come (10_state.md R33). -/
def State.withInputs (s : State) (l : List CycleInput) : State := { s with inputs := l }

section Inputs

variable {s t : State} {l : List CycleInput}

/-- A state with inputs to come is one in which the first of them was presented. -/
theorem State.present_withInputs {inp : CycleInput} (h : s.inputs = inp :: l) :
    (s.withInputs l).present inp = s := by
  simp only [State.present, State.withInputs, ← h]

/-- Handlers with the same result, but for the inputs to come, complete or fail alike. -/
theorem complete_withInputs {r r' : Except Fault State} (hr : r' = r.map fun u => u.withInputs l)
    (ht : s.complete r = .next t) : (s.withInputs l).complete r' = .next (t.withInputs l) := by
  subst hr
  cases r <;> cases ht <;> rfl

/-- A handler that uses the result of an access which does not depend on the inputs. -/
theorem complete_map_withInputs {α : Type} {r : Except Fault α} {g g' : α → State}
    (hg : ∀ a, g' a = (g a).withInputs l) (ht : s.complete (r.map g) = .next t) :
    (s.withInputs l).complete (r.map g') = .next (t.withInputs l) := by
  refine complete_withInputs ?_ ht
  cases r with
  | ok a => exact congrArg Except.ok (hg a)
  | error f => rfl

theorem State.pop_withInputs (s : State) (l : List CycleInput) :
    (s.withInputs l).pop = s.pop.map fun u => u.withInputs l := by
  obtain ⟨h, e⟩ | ⟨h, e⟩ := s.pop_cases <;> rw [e]
  · exact State.pop_ok (s := s.withInputs l) h
  · exact State.pop_error (s := s.withInputs l) h

theorem State.push_withInputs (s : State) (l : List CycleInput) :
    (s.withInputs l).push = s.push.map fun u => u.withInputs l := by
  obtain ⟨h, e⟩ | ⟨h, e⟩ := s.push_cases <;> rw [e]
  · exact State.push_ok (s := s.withInputs l) h
  · exact State.push_error (s := s.withInputs l) h

/-- R231, R232: the key test reads the level of its own key alone. -/
theorem State.keyDown_withInputs {b : Byte}
    (hk : ∀ k : Key, b.toNat = k.val → s.input.keys[k] = (s.withInputs l).input.keys[k]) :
    (s.withInputs l).keyDown b = s.keyDown b := by
  obtain ⟨h, e⟩ | ⟨h, e⟩ := s.keyDown_cases b <;> rw [e]
  · rw [State.keyDown_ok h]
    exact congrArg Except.ok (hk ⟨b.toNat, h⟩ rfl).symm
  · exact State.keyDown_error h

theorem keySkip_withInputs {b : Byte} (c : Bool → Bool)
    (hk : ∀ k : Key, b.toNat = k.val → s.input.keys[k] = (s.withInputs l).input.keys[k])
    (ht : s.complete ((s.keyDown b).map fun down => s.skipIf (c down)) = .next t) :
    (s.withInputs l).complete (((s.withInputs l).keyDown b).map fun down => (s.withInputs l).skipIf (c down)) =
      .next (t.withInputs l) := by
  rw [State.keyDown_withInputs hk]
  exact complete_map_withInputs (fun _ => rfl) ht

/-- R130: with inputs that agree on what the instruction reads, it does the same. -/
theorem exec_withInputs {i : Instr} (hrnd : ∀ x nn, i = .opCxnn x nn → s.input.rnd = (s.withInputs l).input.rnd)
    (hkey : ∀ x und, i = .opEx9E x und ∨ i = .opExA1 x und →
      ∀ k : Key, (s.reg x).toNat = k.val → s.input.keys[k] = (s.withInputs l).input.keys[k])
    (hany : ∀ x, i = .opFx0A x → s.input.anyKey = (s.withInputs l).input.anyKey) (ht : exec i s = .next t) :
    exec i (s.withInputs l) = .next (t.withInputs l) := by
  cases i with
  | op00EE und => exact complete_withInputs (s.pop_withInputs l) ht
  | op2nnn nnn =>
    refine complete_withInputs ?_ ht
    rw [State.push_withInputs]
    cases s.push <;> rfl
  | opDxyn x y n | opFx65 x | opFx33 x | opFx55 x =>
    exact complete_map_withInputs (s := s) (fun _ => rfl) ht
  | opEx9E x und => exact keySkip_withInputs id (hkey x und (.inl rfl)) ht
  | opExA1 x und => exact keySkip_withInputs not (hkey x und (.inr rfl)) ht
  | opCxnn x nn =>
    obtain rfl := Host.Outcome.next.inj ht
    simp only [exec, execCxnn, ← hrnd x nn rfl]
    rfl
  | opFx0A x =>
    have hkeys := hany x rfl
    cases hk : s.input.anyKey with
    | none =>
      rw [exec_opFx0A_none x hk] at ht
      obtain rfl := Host.Outcome.next.inj ht
      exact exec_opFx0A_none x (hkeys.symm.trans hk)
    | some k =>
      rw [exec_opFx0A_some x hk] at ht
      obtain rfl := Host.Outcome.next.inj ht
      exact exec_opFx0A_some x (hkeys.symm.trans hk)
  | op00E0 _ | op1nnn _ | op3xnn _ _ | op4xnn _ _ | op5xy0 _ _ _ | op6xnn _ _ | op7xnn _ _ | op8xy0 _ _ | op8xy1 _ _
  | op8xy2 _ _ | op8xy3 _ _ | op8xy4 _ _ | op8xy5 _ _ | op8xy6 _ _ | op8xy7 _ _ | op8xyE _ _ | op9xy0 _ _ _ | opAnnn _
  | opBnnn _ | opFx07 _ | opFx15 _ | opFx18 _ | opFx1E _ | opFx29 _ =>
    obtain rfl := Host.Outcome.next.inj ht
    rfl

end Inputs

/-- Settles O15: no execute phase changes the inputs to come, so the first run's state is one in which its input was
presented; the second run is the same with the other input in its place. -/
theorem instructionsReadOnlyTheirInputs : Obligations.InstructionsReadOnlyTheirInputs := by
  unfold Obligations.InstructionsReadOnlyTheirInputs
  intro i s a b hrnd hkey hany
  obtain ⟨t, ht, heff⟩ := exec_effect i (s.present a)
  obtain ⟨-, hinputs, -, -⟩ := heff.ir_inputs_draws_warn_eq
  have hb := exec_withInputs (l := b :: s.inputs) hrnd hkey hany ht
  exact ⟨t.withInputs s.inputs, (State.present_withInputs hinputs).symm ▸ ht, hb⟩

end Sys2Proof.Machine
end

section
/-!
SUPPORT. Control transfer (41_control.md R140 to R148): the families whose words are the transfers, the two results of
the call stack in an execute phase, and the skips, each with its frame.
-/

namespace Sys2Proof

/-! ## The families of the transfers (30_encoding.md R94, R99) -/

section Families

variable {w : Word}

theorem decode_family1 (ho : opOf w = 0x1#4) : decode w = .ok (.op1nnn (nnnOf w)) := by simp only [decode, ho]

theorem decode_family2 (ho : opOf w = 0x2#4) : decode w = .ok (.op2nnn (nnnOf w)) := by simp only [decode, ho]

theorem decode_family3 (ho : opOf w = 0x3#4) : decode w = .ok (.op3xnn (xOf w) (nnOf w)) := by simp only [decode, ho]

theorem decode_family4 (ho : opOf w = 0x4#4) : decode w = .ok (.op4xnn (xOf w) (nnOf w)) := by simp only [decode, ho]

theorem decode_family5 (ho : opOf w = 0x5#4) : decode w = .ok (.op5xy0 (xOf w) (yOf w) (lowNibbleOf w)) := by
  simp only [decode, ho]

theorem decode_family9 (ho : opOf w = 0x9#4) : decode w = .ok (.op9xy0 (xOf w) (yOf w) (lowNibbleOf w)) := by
  simp only [decode, ho]

theorem decode_familyB (ho : opOf w = 0xB#4) : decode w = .ok (.opBnnn (nnnOf w)) := by simp only [decode, ho]

theorem decode_return (ho : opOf w = 0x0#4) (hl : lowNibbleOf w = 0xE#4) : decode w = .ok (.op00EE (midOf w)) := by
  rw [decode_family0 ho]
  simp only [decodeFamily0, hl]

end Families

namespace Machine

/-! ## Frames of a transfer -/

theorem onlyPc_setPc (s : State) (a : Word) : OnlyPc s { s with pc := a } := ⟨rfl, fun _ => rfl⟩

theorem onlyPc_skipIf (s : State) (c : Bool) : OnlyPc s (s.skipIf c) := ⟨rfl, fun _ => rfl⟩

theorem failedAt_raise (s : State) (pc0 : Word) (f : Fault) : FailedAt s (s.raise pc0 f) pc0 f.code f.info :=
  ⟨rfl, fun _ => rfl⟩

/-! ## Jumps -/

/-- R147: the sum of a byte and a 12-bit address is below 65536, so the 16-bit addition does not wrap. -/
theorem jumpOffset_toNat (b : Byte) (nnn : BitVec 12) :
    (byteToWord b + addressToWord nnn).toNat = b.toNat + nnn.toNat := by
  have hb := b.isLt
  have hn := nnn.isLt
  rw [BitVec.toNat_add, byteToWord_toNat, addressToWord_toNat]
  omega

/-! ## Call and return -/

/-- R142: the entry at `SP` holds the saved address, every other one what it held. -/
theorem State.getElem_stack_set (s : State) (a : Word) (h : s.sp.val < 16) (k : Fin 16) :
    (s.stack.set s.sp.val a h)[k] = if k.val = s.sp.val then a else s.stack[k] := by
  rw [Fin.getElem_fin, Vector.getElem_set, Fin.getElem_fin]
  simp only [eq_comm]

/-- R255: the call that finds the stack full. -/
theorem exec_op2nnn_error {s : State} (nnn : BitVec 12) (h : s.sp.val = 16) :
    exec (.op2nnn nnn) s = .next (s.raise (s.pc - 2#16) (.stackError 16#16)) := by
  simp only [exec, exec2nnn, State.push_error h, Except.map, State.complete_error]

/-- R255: the return that finds the stack empty. -/
theorem exec_op00EE_error {s : State} (und : BitVec 8) (h : s.sp.val = 0) :
    exec (.op00EE und) s = .next (s.raise (s.pc - 2#16) (.stackError 0#16)) := by
  simp only [exec, exec00EE, State.pop_error h, State.complete_error]

/-! ## Skips (R148), with the condition in the numbers compared -/

theorem State.pc_skipIf_beq (s : State) (a b : Byte) :
    (s.skipIf (a == b)).pc = if a.toNat = b.toNat then s.pc + 2#16 else s.pc := by
  simp only [State.pc_skipIf, beq_iff_eq, BitVec.toNat_inj]

theorem State.pc_skipIf_bne (s : State) (a b : Byte) :
    (s.skipIf (a != b)).pc = if a.toNat = b.toNat then s.pc else s.pc + 2#16 := by
  simp only [State.pc_skipIf, bne_iff_ne, BitVec.toNat_inj, ne_eq, ite_not]

/-! ## The statements -/

/-- Settles O27: the target is the address immediate, zero-extended. -/
theorem jumpSetsPc : Obligations.JumpSetsPc := by
  unfold Obligations.JumpSetsPc
  exact ⟨fun _ => decode_family1, fun nnn s => ⟨_, rfl, addressToWord_toNat nnn, onlyPc_setPc s _⟩⟩

/-- Settles O28: the 16-bit sum does not wrap (`jumpOffset_toNat`). -/
theorem jumpWithOffsetAddsRegisterZero : Obligations.JumpWithOffsetAddsRegisterZero := by
  unfold Obligations.JumpWithOffsetAddsRegisterZero
  exact ⟨fun _ => decode_familyB, fun nnn s => ⟨_, rfl, jumpOffset_toNat (s.reg 0) nnn, onlyPc_setPc s _⟩⟩

/-- Settles O29: the two results of a push, and the entries after the one write. -/
theorem callPushesTheReturnAddress : Obligations.CallPushesTheReturnAddress := by
  unfold Obligations.CallPushesTheReturnAddress
  refine ⟨fun _ => decode_family2, fun nnn s => ⟨fun h => ?_, fun h => ?_⟩⟩
  · exact ⟨_, exec_op2nnn_ok nnn h, addressToWord_toNat nnn, rfl, s.getElem_stack_set s.pc h, rfl, fun _ => rfl⟩
  · exact ⟨_, exec_op2nnn_error nnn h, failedAt_raise s _ _⟩

/-- Settles O30: the two results of a pop; the entry below `SP = k + 1` is entry `k`. -/
theorem returnPopsTheReturnAddress : Obligations.ReturnPopsTheReturnAddress := by
  unfold Obligations.ReturnPopsTheReturnAddress
  refine ⟨fun _ => decode_return, fun und s => ⟨fun k hk => ?_, fun h => ?_⟩⟩
  · have hpos : 0 < s.sp.val := by omega
    have hbelow : s.sp.val - 1 = k.val := by omega
    exact ⟨_, exec_op00EE_ok und hpos, by simp only [hbelow, Fin.getElem_fin], hbelow, rfl, rfl, fun _ => rfl⟩
  · exact ⟨_, exec_op00EE_error und h, failedAt_raise s _ _⟩

/-- Settles O31: the call and the return of O29 and O30, one after the other: the entry the return reads is the one the
call wrote. -/
theorem returnAfterCallRestoresPcAndSp : Obligations.ReturnAfterCallRestoresPcAndSp := by
  unfold Obligations.ReturnAfterCallRestoresPcAndSp
  intro nnn und s h
  obtain ⟨-, hcall⟩ := callPushesTheReturnAddress
  obtain ⟨-, hreturn⟩ := returnPopsTheReturnAddress
  obtain ⟨t, ht, -, htsp, htstack, -⟩ := (hcall nnn s).1 h
  refine ⟨t, ht, fun r hrsp hrstack => ?_⟩
  obtain ⟨u, hu, hupc, husp, hustack, -⟩ := (hreturn und r).1 ⟨s.sp.val, h⟩ (hrsp ▸ htsp)
  refine ⟨u, hu, ?_, Fin.ext husp, fun k hk => ?_⟩
  · rw [hupc, hrstack, htstack, if_pos rfl]
  · rw [hustack, hrstack, htstack, if_neg hk]

/-- Settles O32: 3xnn skips on equality, 4xnn on its negation. -/
theorem skipsCompareWithAnImmediate : Obligations.SkipsCompareWithAnImmediate := by
  unfold Obligations.SkipsCompareWithAnImmediate
  refine ⟨fun _ => decode_family3, fun _ => decode_family4, fun x nn s => ⟨?_, ?_⟩⟩
  · exact ⟨_, rfl, s.pc_skipIf_beq (s.reg x) nn, onlyPc_skipIf s _⟩
  · exact ⟨_, rfl, s.pc_skipIf_bne (s.reg x) nn, onlyPc_skipIf s _⟩

/-- Settles O33: 5xy0 skips on equality, 9xy0 on its negation; no handler reads the low digit. -/
theorem skipsCompareTwoRegisters : Obligations.SkipsCompareTwoRegisters := by
  unfold Obligations.SkipsCompareTwoRegisters
  refine ⟨fun _ => decode_family5, fun _ => decode_family9, fun x y und s => ⟨?_, ?_⟩⟩
  · exact ⟨_, rfl, s.pc_skipIf_beq (s.reg x) (s.reg y), onlyPc_skipIf s _⟩
  · exact ⟨_, rfl, s.pc_skipIf_bne (s.reg x) (s.reg y), onlyPc_skipIf s _⟩

end Machine

end Sys2Proof
end

section
/-!
SUPPORT. Register load, arithmetic, logic, shift, random (42_alu.md R160 to R172): the families whose words are these
instructions, the two ways they write registers, each with its frame, and the byte arithmetic in unbounded numbers.
-/

namespace Sys2Proof

/-! ## The words of these instructions (30_encoding.md R94, R96, R99) -/

section AluWords

variable {w : Word}

theorem decode_family6 (ho : opOf w = 0x6#4) : decode w = .ok (.op6xnn (xOf w) (nnOf w)) := by simp only [decode, ho]

theorem decode_family7 (ho : opOf w = 0x7#4) : decode w = .ok (.op7xnn (xOf w) (nnOf w)) := by simp only [decode, ho]

theorem decode_familyC (ho : opOf w = 0xC#4) : decode w = .ok (.opCxnn (xOf w) (nnOf w)) := by simp only [decode, ho]

theorem decode_copy (ho : opOf w = 0x8#4) (hl : lowNibbleOf w = 0x0#4) :
    decode w = .ok (.op8xy0 (xOf w) (yOf w)) := by
  rw [decode_family8 ho]
  simp only [decodeFamily8, hl]

theorem decode_addRegister (ho : opOf w = 0x8#4) (hl : lowNibbleOf w = 0x4#4) :
    decode w = .ok (.op8xy4 (xOf w) (yOf w)) := by
  rw [decode_family8 ho]
  simp only [decodeFamily8, hl]

theorem decode_subtract (ho : opOf w = 0x8#4) (hl : lowNibbleOf w = 0x5#4) :
    decode w = .ok (.op8xy5 (xOf w) (yOf w)) := by
  rw [decode_family8 ho]
  simp only [decodeFamily8, hl]

theorem decode_subtractReversed (ho : opOf w = 0x8#4) (hl : lowNibbleOf w = 0x7#4) :
    decode w = .ok (.op8xy7 (xOf w) (yOf w)) := by
  rw [decode_family8 ho]
  simp only [decodeFamily8, hl]

end AluWords

namespace Machine

/-! ## One register written: the frame -/

theorem setReg_frame (s : State) (x : RegIdx) (b : Byte) :
    (∀ k, k ≠ x → (s.setReg x b).reg k = s.reg k) ∧ OnlyRegisters s (s.setReg x b) :=
  ⟨fun _ hk => s.reg_setReg_ne b hk, s.setReg_eq x b, fun _ => rfl⟩

/-! ## A result and then the flag (40_cycle.md R131): the result unless `x = 15`, the flag always, and the frame -/

theorem State.reg_setResultAndFlag_result (s : State) {x : RegIdx} (r : Byte) (f : Bool) (hx : x ≠ 15) :
    (s.setResultAndFlag x r f).reg x = r := by
  rw [State.reg_setResultAndFlag, vf, if_neg hx, if_pos rfl]

theorem State.reg_setResultAndFlag_flag (s : State) (x : RegIdx) (r : Byte) (f : Bool) :
    (s.setResultAndFlag x r f).reg 15 = flagByte f := by
  rw [State.reg_setResultAndFlag, vf, if_pos rfl]

theorem setResultAndFlag_frame (s : State) (x : RegIdx) (r : Byte) (f : Bool) :
    (∀ k, k ≠ x → k ≠ 15 → (s.setResultAndFlag x r f).reg k = s.reg k) ∧
      OnlyRegisters s (s.setResultAndFlag x r f) :=
  ⟨fun _ hk hf => by rw [State.reg_setResultAndFlag, vf, if_neg hf, if_neg hk],
    s.setResultAndFlag_eq x r f, fun _ => rfl⟩

/-! ## Results (R172), in unbounded numbers -/

theorem byte_sub_toNat (a b : Byte) : (a - b).toNat = (a.toNat + 256 - b.toNat) % 256 := by
  have hb := b.isLt
  rw [BitVec.toNat_sub]
  omega

theorem byte_shiftRight_toNat (a : Byte) : (a >>> 1).toNat = a.toNat / 2 := by
  rw [BitVec.toNat_ushiftRight, Nat.shiftRight_eq_div_pow, Nat.pow_one]

theorem byte_shiftLeft_toNat (a : Byte) : (a <<< 1).toNat = 2 * a.toNat % 256 := by
  rw [BitVec.toNat_shiftLeft, Nat.shiftLeft_eq, Nat.pow_one, Nat.mul_comm]

/-! ## Flags, in unbounded numbers -/

theorem flagByte_carryFlag (a b : Byte) :
    flagByte (carryFlag a b) = if 255 < a.toNat + b.toNat then 0x01#8 else 0x00#8 := by
  simp only [flagByte, carryFlag, decide_eq_true_eq]

theorem flagByte_noBorrowFlag (a b : Byte) :
    flagByte (noBorrowFlag a b) = if a.toNat ≥ b.toNat then 0x01#8 else 0x00#8 := by
  simp only [flagByte, noBorrowFlag, decide_eq_true_eq, ge_iff_le]

theorem flagByte_toNat (f : Bool) : (flagByte f).toNat = f.toNat := by
  cases f <;> rfl

theorem flagByte_shiftRightFlag_toNat (a : Byte) : (flagByte (shiftRightFlag a)).toNat = a.toNat % 2 := by
  rw [flagByte_toNat, shiftRightFlag, BitVec.getLsbD, Nat.toNat_testBit, Nat.pow_zero, Nat.div_one]

/-- R170: bit 7 is the quotient by 128, as a byte is below 256. -/
theorem flagByte_shiftLeftFlag_toNat (a : Byte) : (flagByte (shiftLeftFlag a)).toNat = a.toNat / 128 := by
  have ha := a.isLt
  rw [flagByte_toNat, shiftLeftFlag, BitVec.getLsbD, Nat.toNat_testBit]
  omega

/-! ## A difference and its flag -/

/-- R167, R169, R131: the state after a difference and its no-borrow flag are written, with the operands in either
order. -/
theorem setResultAndFlag_difference {s t : State} {x : RegIdx} {a b : Byte}
    (ht : t = s.setResultAndFlag x (a - b) (noBorrowFlag a b)) :
    (x ≠ 15 → (t.reg x).toNat = (a.toNat + 256 - b.toNat) % 256) ∧
      t.reg 15 = (if a.toNat ≥ b.toNat then 0x01#8 else 0x00#8) ∧
      (∀ k, k ≠ x → k ≠ 15 → t.reg k = s.reg k) ∧ OnlyRegisters s t := by
  subst ht
  refine ⟨fun hx => ?_, ?_, setResultAndFlag_frame s x _ _⟩
  · rw [State.reg_setResultAndFlag_result _ _ _ hx, byte_sub_toNat]
  · rw [State.reg_setResultAndFlag_flag, flagByte_noBorrowFlag]

/-! ## The statements -/

/-- Settles O34: both are one register write, with the immediate or with the sum modulo 256. -/
theorem loadAndAddImmediate : Obligations.LoadAndAddImmediate := by
  unfold Obligations.LoadAndAddImmediate
  refine ⟨fun _ => decode_family6, fun _ => decode_family7, fun x nn s => ⟨?_, ?_⟩⟩
  · exact ⟨_, rfl, s.reg_setReg_same x nn, setReg_frame s x _⟩
  · exact ⟨_, rfl, by rw [State.reg_setReg_same, BitVec.toNat_add], setReg_frame s x _⟩

/-- Settles O35: one register write, of a value read before it. -/
theorem copyRegister : Obligations.CopyRegister := by
  unfold Obligations.CopyRegister
  exact ⟨fun _ => decode_copy, fun x y s => ⟨_, rfl, s.reg_setReg_same x _, setReg_frame s x _⟩⟩

/-- Settles O36: one register write each, of a value whose bits are those of the two operands combined. -/
theorem logicalOperationsBitByBit : Obligations.LogicalOperationsBitByBit := by
  unfold Obligations.LogicalOperationsBitByBit
  refine fun x y s => ⟨?_, ?_, ?_⟩
  · exact ⟨_, rfl, fun b => by rw [State.reg_setReg_same, BitVec.getLsbD_or], setReg_frame s x _⟩
  · exact ⟨_, rfl, fun b => by rw [State.reg_setReg_same, BitVec.getLsbD_and], setReg_frame s x _⟩
  · exact ⟨_, rfl, fun b => by rw [State.reg_setReg_same, BitVec.getLsbD_xor], setReg_frame s x _⟩

/-- Settles O37: the sum, then the carry of the operands as they were. -/
theorem addWithCarryFlag : Obligations.AddWithCarryFlag := by
  unfold Obligations.AddWithCarryFlag
  refine ⟨fun _ => decode_addRegister, fun x y s => ⟨_, rfl, fun hx => ?_, ?_, setResultAndFlag_frame s x _ _⟩⟩
  · rw [State.reg_setResultAndFlag_result _ _ _ hx, BitVec.toNat_add]
  · rw [State.reg_setResultAndFlag_flag, flagByte_carryFlag]

/-- Settles O38: 8xy5 and 8xy7 are one subtraction with the operands in either order (`setResultAndFlag_difference`). -/
theorem subtractWithNoBorrowFlag : Obligations.SubtractWithNoBorrowFlag := by
  unfold Obligations.SubtractWithNoBorrowFlag
  refine ⟨fun _ => decode_subtract, fun _ => decode_subtractReversed, fun x y s => ⟨?_, ?_⟩⟩
  · exact ⟨_, rfl, setResultAndFlag_difference rfl⟩
  · exact ⟨_, rfl, setResultAndFlag_difference rfl⟩

/-- Settles O39: the shifted value, then the bit shifted out of the value as it was; neither meaning reads `y`. -/
theorem shiftsMoveOneBitIntoTheFlag : Obligations.ShiftsMoveOneBitIntoTheFlag := by
  unfold Obligations.ShiftsMoveOneBitIntoTheFlag
  refine fun x y s => ⟨⟨_, rfl, fun hx => ?_, ?_, setResultAndFlag_frame s x _ _⟩,
    ⟨_, rfl, fun hx => ?_, ?_, setResultAndFlag_frame s x _ _⟩⟩
  · rw [State.reg_setResultAndFlag_result _ _ _ hx, byte_shiftRight_toNat]
  · rw [State.reg_setResultAndFlag_flag, flagByte_shiftRightFlag_toNat]
  · rw [State.reg_setResultAndFlag_result _ _ _ hx, byte_shiftLeft_toNat]
  · rw [State.reg_setResultAndFlag_flag, flagByte_shiftLeftFlag_toNat]

/-- Settles O40: one register write, of the cycle's random byte under the mask. -/
theorem randomByteUnderMask : Obligations.RandomByteUnderMask := by
  unfold Obligations.RandomByteUnderMask
  refine ⟨fun _ => decode_familyC, fun x nn s => ⟨_, rfl, fun b => ?_, setReg_frame s x _⟩⟩
  rw [State.reg_setReg_same, BitVec.getLsbD_and]

end Machine

end Sys2Proof
end

section
/-!
SUPPORT. Index register, decimal digits, register store and load (43_index_memory.md R190 to R196): the family whose
words are Annn, the address arithmetic in unbounded numbers, what a store at `I` leaves in memory, and the range error.
-/

namespace Sys2Proof

theorem decode_familyA {w : Word} (ho : opOf w = 0xA#4) : decode w = .ok (.opAnnn (nnnOf w)) := by
  simp only [decode, ho]

namespace Machine

/-! ## `I`: its arithmetic and its frame -/

theorem onlyIndex_setIndex (s : State) (a : Word) : OnlyIndex s { s with i := a } := ⟨rfl, fun _ => rfl⟩

/-- R192: the address of a glyph is at most 0x050 + 5 * 255, so the 16-bit arithmetic does not wrap. -/
theorem glyphAddress_toNat (d : Byte) : (glyphAddress d).toNat = 0x050 + 5 * d.toNat := by
  have hd := d.isLt
  simp only [glyphAddress, Config.fontBase, Config.glyphBytes, BitVec.toNat_add, BitVec.toNat_mul, BitVec.toNat_ofNat,
    byteToWord_toNat]
  omega

/-- R194: a store leaves `I` as it is. -/
theorem OnlyBytes.i_eq {s t : State} {base len : Nat} (h : OnlyBytes s t base len) : t.i = s.i := by rw [h.1]

/-- R195: a load leaves `I` as it is. -/
theorem OnlyRegisters.i_eq {s t : State} (h : OnlyRegisters s t) : t.i = s.i := by rw [h.1]

/-! ## Stores at `I` -/

/-- R193, R194: a store at `I` changes the stored bytes alone. -/
theorem onlyBytes_writeBytes (s : State) (bytes : List Byte) :
    OnlyBytes s { s with mem := s.mem.writeBytes s.i.toNat bytes } s.base bytes.length :=
  ⟨rfl, fun a ha => s.mem.read_writeBytes_outside s.i.toNat bytes a ha⟩

/-- R193: the quotients and remainders of a byte by 10 and 100 are bytes themselves. -/
theorem bcdDigits_toNat (b : Byte) :
    (bcdDigits b).map BitVec.toNat = [b.toNat / 100, b.toNat / 10 % 10, b.toNat % 10] := by
  have hb := b.isLt
  simp only [bcdDigits, List.map_cons, List.map_nil, BitVec.toNat_ofNat, List.cons.injEq, and_true]
  omega

/-- R193: digit `k` of the three stands `k` bytes above the base. -/
theorem State.read_writeBytes_bcdDigits (s : State) (b : Byte) {k d : Nat} (hm : s.mem.wf = true)
    (hfit : s.i.toNat + 3 ≤ 0x1000) (hd : ((bcdDigits b).map BitVec.toNat)[k]? = some d) :
    ((s.mem.writeBytes s.i.toNat (bcdDigits b)).read (s.i.toNat + k)).toNat = d := by
  rw [List.getElem?_map, Option.map_eq_some_iff] at hd
  obtain ⟨c, hc, rfl⟩ := hd
  obtain ⟨hk, rfl⟩ := List.getElem?_eq_some_iff.1 hc
  rw [Memory.read_writeBytes_inside hm _ _ hfit k hk]

/-! ## A range outside memory (R196) -/

/-- R255, R256: the fatal error of a range from `I` on reports the lowest address outside memory. -/
theorem failedAt_range (s : State) :
    FailedAt s (s.raise (s.pc - 2#16) (.boundsError (BitVec.ofNat 16 (max s.i.toNat 0x1000)))) (s.pc - 2#16) 2#3
      (if 0x1000 ≤ s.i.toNat then s.i else 0x1000#16) := by
  rw [rangeInfo]
  exact failedAt_raise s _ _

/-- R196: the execute phase of a store whose range leaves memory. -/
theorem complete_storeAtI_failedAt {s : State} {bytes : List Byte}
    (h : 0 < bytes.length ∧ 0x1000 < s.i.toNat + bytes.length) :
    ∃ t, s.complete (s.storeAtI bytes) = .next t ∧
      FailedAt s t (s.pc - 2#16) 2#3 (if 0x1000 ≤ s.i.toNat then s.i else 0x1000#16) := by
  rw [State.storeAtI_error h, State.complete_error]
  exact ⟨_, rfl, failedAt_range s⟩

/-- R196, R214: the execute phase of a load or a draw whose range leaves memory. -/
theorem complete_loadAtI_failedAt {s : State} {len : Nat} (g : List Byte → State)
    (h : 0 < len ∧ 0x1000 < s.i.toNat + len) :
    ∃ t, s.complete ((s.loadAtI len).map g) = .next t ∧
      FailedAt s t (s.pc - 2#16) 2#3 (if 0x1000 ≤ s.i.toNat then s.i else 0x1000#16) := by
  rw [State.loadAtI_error h, Except.map, State.complete_error]
  exact ⟨_, rfl, failedAt_range s⟩

/-! ## The statements -/

/-- Settles O44: the three digits are the bytes stored, and each is read back where it was put. -/
theorem storeDecimalDigits : Obligations.StoreDecimalDigits := by
  unfold Obligations.StoreDecimalDigits
  simp only [State.base]
  intro x s hm hfit
  have hfits : s.i.toNat + 3 ≤ 0x1000 := by omega
  have digits := bcdDigits_toNat (s.reg x)
  refine ⟨_, exec_opFx33_ok hfits, ?_, ?_, ?_, onlyBytes_writeBytes s _, Memory.wf_writeBytes hm _ _ hfits⟩
  · exact s.read_writeBytes_bcdDigits (k := 0) _ hm hfits (by rw [digits]; rfl)
  · exact s.read_writeBytes_bcdDigits (k := 1) _ hm hfits (by rw [digits]; rfl)
  · exact s.read_writeBytes_bcdDigits (k := 2) _ hm hfits (by rw [digits]; rfl)

/-- Settles O45: each register is read back where it was put (`State.read_writeBytes_regsUpTo`). -/
theorem storeRegisterRange : Obligations.StoreRegisterRange := by
  unfold Obligations.StoreRegisterRange
  intro x s hm hfit
  have hfits : s.i.toNat + (x.val + 1) ≤ 0x1000 := Nat.succ_le_succ hfit
  have hlen := s.length_regsUpTo x
  refine ⟨_, exec_opFx55_ok hfits, fun k hk => s.read_writeBytes_regsUpTo hm hfit hk, ?_, ?_⟩
  · exact hlen ▸ onlyBytes_writeBytes s (s.regsUpTo x)
  · exact Memory.wf_writeBytes hm _ _ (hlen.symm ▸ hfits)

/-- Settles O46: the load is `State.loadRange`, whose registers are known. -/
theorem loadRegisterRange : Obligations.LoadRegisterRange := by
  unfold Obligations.LoadRegisterRange
  exact fun x s hfit => ⟨s.loadRange x, exec_opFx65_ok (Nat.succ_le_succ hfit), s.reg_loadRange x, rfl, fun _ => rfl⟩

/-- Settles O47: two stores and two loads, all checked before they change anything. -/
theorem rangeOutsideMemoryIsABoundsError : Obligations.RangeOutsideMemoryIsABoundsError := by
  unfold Obligations.RangeOutsideMemoryIsABoundsError
  simp only [State.base]
  refine fun x y n s => ⟨fun h => ?_, fun h => ?_, fun h => ?_, fun hn h => ?_⟩
  · exact complete_storeAtI_failedAt (bytes := bcdDigits (s.reg x)) ⟨Nat.succ_pos 2, Nat.succ_lt_succ h⟩
  · exact complete_storeAtI_failedAt (bytes := s.regsUpTo x) (by rw [s.length_regsUpTo x]; omega)
  · exact complete_loadAtI_failedAt _ ⟨Nat.succ_pos _, Nat.succ_lt_succ h⟩
  · exact complete_loadAtI_failedAt _ ⟨hn, h⟩

/-- Settles O48: the store of O45 and the load of O46, one after the other, from the same `I`. -/
theorem storeThenLoadRestoresTheRegisters : Obligations.StoreThenLoadRestoresTheRegisters := by
  unfold Obligations.StoreThenLoadRestoresTheRegisters
  intro x s v hm hfit
  obtain ⟨t, ht, hstored, hframe, -⟩ := storeRegisterRange x s hm hfit
  have hbase : ({ t with v := v } : State).base = s.base := congrArg BitVec.toNat hframe.i_eq
  obtain ⟨u, hu, hloaded, hkept⟩ := loadRegisterRange x { t with v := v } (hbase ▸ hfit)
  refine ⟨t, ht, hframe.i_eq, u, hu, hkept.i_eq.trans hframe.i_eq, fun k hk => ?_, fun k hk => ?_⟩
  · rw [hloaded, if_pos hk, hbase, hstored k hk]
  · rw [hloaded, if_neg (Fin.not_le.2 hk)]
    rfl

/-- Settles O41: `I` is the address immediate, zero-extended. -/
theorem loadIndexRegister : Obligations.LoadIndexRegister := by
  unfold Obligations.LoadIndexRegister
  exact ⟨fun _ => decode_familyA, fun nnn s => ⟨_, rfl, addressToWord_toNat nnn, onlyIndex_setIndex s _⟩⟩

/-- Settles O42: a 16-bit addition of the zero-extended register. -/
theorem addRegisterToIndex : Obligations.AddRegisterToIndex := by
  unfold Obligations.AddRegisterToIndex
  exact fun x s => ⟨_, rfl, by rw [BitVec.toNat_add, byteToWord_toNat], onlyIndex_setIndex s _⟩

/-- Settles O43: the 16-bit arithmetic does not wrap (`glyphAddress_toNat`). -/
theorem glyphAddressFromRegister : Obligations.GlyphAddressFromRegister := by
  unfold Obligations.GlyphAddressFromRegister
  exact fun x s => ⟨_, rfl, glyphAddress_toNat (s.reg x), onlyIndex_setIndex s _⟩

end Machine

end Sys2Proof
end

section
/-!
SUPPORT. The display (44_display.md R210 to R216): the words of 00E0 and Dxyn, the frame of the display, one toggle, and
the sprite of the machine read from memory, pixel by pixel, with its flag.
-/

namespace Sys2Proof

/-! ## The words of the display instructions (30_encoding.md R94, R95, R99) -/

theorem decode_familyD {w : Word} (ho : opOf w = 0xD#4) : decode w = .ok (.opDxyn (xOf w) (yOf w) (nOf w)) := by
  simp only [decode, ho]

theorem decode_clear {w : Word} (ho : opOf w = 0x0#4) (hl : lowNibbleOf w = 0x0#4) :
    decode w = .ok (.op00E0 (midOf w)) := by
  simp only [decode_family0 ho, decodeFamily0, hl]

namespace Machine

/-! ## The frame of the display (R216) -/

/-- R216: the display is changed by 00E0 and Dxyn alone. -/
theorem Effect.fb_eq {s t : State} {i : Instr} (h : Effect s i t) (hclear : ∀ und, i ≠ .op00E0 und)
    (hdraw : ∀ x y n, i ≠ .opDxyn x y n) : t.fb = s.fb := by
  cases h with
  | clear und => exact absurd rfl (hclear und)
  | draw x y n rows => exact absurd rfl (hdraw x y n)
  | _ => rfl

/-! ## The sprite in memory (R214) -/

theorem Memory.readBytes_getD (m : Memory) (a : Nat) {len k : Nat} (h : k < len) :
    (m.readBytes a len).getD k 0x00#8 = m.read (a + k) := by
  rw [List.getD_eq_getElem?_getD, m.readBytes_getElem? a len k h, Option.getD_some]

/-- The bit of the row list (`rowsBit`) is the bit the statements speak of: the offsets agree as 256 is a multiple of 64
and of 32, and a row past the last is zero in the one and left out in the other. -/
theorem rowsBit_readBytes (m : Memory) (base n : Nat) (x0 y0 : Byte) (px py : Nat) :
    rowsBit x0.toNat y0.toNat (m.readBytes base n) px py = spriteBit m base n x0 y0 px py := by
  have hx := x0.isLt
  have hy := y0.isLt
  have hc : columnOffset x0.toNat px = (px + 256 - x0.toNat) % 64 := by unfold columnOffset; omega
  have hr : rowOffset y0.toNat py = (py + 256 - y0.toNat) % 32 := by unfold rowOffset; omega
  rw [rowsBit, rowBits_getD, hc, hr]
  by_cases h : (py + 256 - y0.toNat) % 32 < n
  · simp only [spriteBit, m.readBytes_getD base h, h, decide_true, Bool.true_and]
  · have hpast : (m.readBytes base n).length ≤ (py + 256 - y0.toNat) % 32 := by
      rw [m.length_readBytes]
      exact Nat.le_of_not_lt h
    rw [List.getD_eq_getElem?_getD, List.getElem?_eq_none hpast, Option.getD_none, BitVec.getLsbD_zero, Bool.and_false]
    simp only [spriteBit, h, decide_false, Bool.false_and]

/-- R214, coordinate by coordinate: a sprite puts a set bit on a pixel when bit `7 - c` of its row `r` is set and lies
there. -/
theorem spriteBit_eq_true_iff {m : Memory} {base n : Nat} {x0 y0 : Byte} {px py : Nat} (hn : n ≤ 32) (hpx : px < 64)
    (hpy : py < 32) :
    spriteBit m base n x0 y0 px py = true ↔
      ∃ r c, r < n ∧ c < 8 ∧ (m.read (base + r)).getLsbD (7 - c) = true ∧
        px = (x0.toNat + c) % 64 ∧ py = (y0.toNat + r) % 32 := by
  have hx := x0.isLt
  have hy := y0.isLt
  simp only [spriteBit, Bool.and_eq_true, decide_eq_true_eq]
  constructor
  · rintro ⟨⟨hr, hc⟩, hbit⟩
    exact ⟨_, _, hr, hc, hbit, by omega, by omega⟩
  · rintro ⟨r, c, hr, hc, hbit, hpx', hpy'⟩
    have er : (py + 256 - y0.toNat) % 32 = r := by omega
    have ec : (px + 256 - x0.toNat) % 64 = c := by omega
    rw [er, ec]
    exact ⟨⟨hr, hc⟩, hbit⟩

/-- A sprite with a row that is not zero puts a set bit on some pixel. -/
theorem exists_spriteBit {m : Memory} {base n k : Nat} (x0 y0 : Byte) (hn : n ≤ 32) (hk : k < n)
    (hrow : m.read (base + k) ≠ 0x00#8) :
    ∃ px py, px < 64 ∧ py < 32 ∧ spriteBit m base n x0 y0 px py = true := by
  obtain ⟨j, hj, hbit⟩ : ∃ j, j < 8 ∧ (m.read (base + k)).getLsbD j = true := by
    refine Classical.byContradiction fun hnone => hrow (BitVec.eq_of_getLsbD_eq fun j hj => ?_)
    rw [BitVec.getLsbD_zero]
    exact Bool.eq_false_iff.2 fun hset => hnone ⟨j, hj, hset⟩
  have hx : (x0.toNat + (7 - j)) % 64 < 64 := Nat.mod_lt _ (by decide)
  have hy : (y0.toNat + k) % 32 < 32 := Nat.mod_lt _ (by decide)
  refine ⟨_, _, hx, hy, (spriteBit_eq_true_iff hn hx hy).2 ⟨k, 7 - j, hk, by omega, ?_, rfl, rfl⟩⟩
  rwa [show 7 - (7 - j) = j by omega]

/-! ## The drawn sprite (R214, R215) -/

theorem flagByte_eq_one (f : Bool) : flagByte f = 0x01#8 ↔ f = true := by
  cases f <;> decide

section DrawnSprite

variable (s : State) (x y : RegIdx) {n : Nat} (hn : n ≤ 32)
include hn

theorem State.pixel_drawSprite (px py : Nat) :
    (s.drawSprite x y (s.mem.readBytes s.i.toNat n)).fb.pixel px py =
      Bool.xor (s.fb.pixel px py) (spriteBit s.mem s.base n (s.reg x) (s.reg y) px py) := by
  have hlen : (s.mem.readBytes s.i.toNat n).length ≤ 32 := by rwa [Memory.length_readBytes]
  exact (s.fb.pixel_drawRows _ _ _ hlen px py).trans (by rw [rowsBit_readBytes, State.base])

/-- R215: the flag is set exactly when a set bit of the sprite lies on a set pixel. -/
theorem State.vf_drawSprite :
    (s.drawSprite x y (s.mem.readBytes s.i.toNat n)).reg 15 = 0x01#8 ↔
      ∃ px py, px < 64 ∧ py < 32 ∧ s.fb.pixel px py = true ∧
        spriteBit s.mem s.base n (s.reg x) (s.reg y) px py = true := by
  have hlen : (s.mem.readBytes s.i.toNat n).length ≤ 32 := by rwa [Memory.length_readBytes]
  rw [State.drawSprite, State.setFlag, show (15 : RegIdx) = vf from rfl, State.reg_setReg_same, flagByte_eq_one,
    Framebuffer.collided_drawRows _ _ _ _ hlen, Memory.length_readBytes]
  constructor
  · rintro ⟨r, c, hr, hc, hbit, hset⟩
    rw [s.mem.readBytes_getD s.i.toNat hr] at hbit
    have hx : ((s.reg x).toNat + c) % 64 < 64 := Nat.mod_lt _ (by decide)
    have hy : ((s.reg y).toNat + r) % 32 < 32 := Nat.mod_lt _ (by decide)
    exact ⟨_, _, hx, hy, (s.fb.pixel_mod _ _).trans hset,
      (spriteBit_eq_true_iff hn hx hy).2 ⟨r, c, hr, hc, hbit, rfl, rfl⟩⟩
  · rintro ⟨px, py, hpx, hpy, hset, hbit⟩
    obtain ⟨r, c, hr, hc, hbit, rfl, rfl⟩ := (spriteBit_eq_true_iff hn hpx hpy).1 hbit
    exact ⟨r, c, hr, hc, by rwa [s.mem.readBytes_getD s.i.toNat hr], (s.fb.pixel_mod _ _).symm.trans hset⟩

end DrawnSprite

/-! ## The statements -/

/-- Settles O19: of the effects, a clear and a draw alone change the display. -/
theorem onlyClearAndDrawChangeTheDisplay : Obligations.OnlyClearAndDrawChangeTheDisplay := by
  unfold Obligations.OnlyClearAndDrawChangeTheDisplay
  intro i s hclear hdraw
  obtain ⟨t, ht, heff⟩ := exec_effect i s
  exact ⟨t, ht, heff.fb_eq hclear hdraw⟩

/-- Settles O53: the draw completes with `State.drawSprite`, whose pixels and flag are known. -/
theorem drawSpriteXorsTheCoveredPixels : Obligations.DrawSpriteXorsTheCoveredPixels := by
  unfold Obligations.DrawSpriteXorsTheCoveredPixels
  refine ⟨fun _ => decode_familyD, fun x y n s hfit => ?_⟩
  have hn : n.val ≤ 32 := by omega
  exact ⟨_, exec_opDxyn_ok x y hfit, fun px py _ _ => s.pixel_drawSprite x y hn px py, s.vf_drawSprite x y hn,
    State.setFlag_vf _ _, fun k hk => s.reg_drawSprite x y _ hk, rfl, fun _ => rfl⟩

/-- Settles O54: both draws put the same bits on the display (O53), and where the first met no set pixel, it left one
under each set bit of the sprite. -/
theorem drawingTwiceErasesTheSprite : Obligations.DrawingTwiceErasesTheSprite := by
  unfold Obligations.DrawingTwiceErasesTheSprite
  intro x y x' y' n s hfit
  obtain ⟨t, ht, htpix, htflag, -⟩ := drawSpriteXorsTheCoveredPixels.2 x y n s hfit
  refine ⟨t, ht, fun r hfb hmem hi hx hy => ?_⟩
  have hbase : r.base = s.base := congrArg BitVec.toNat hi
  obtain ⟨u, hu, hupix, huflag, -⟩ := drawSpriteXorsTheCoveredPixels.2 x' y' n r (hbase ▸ hfit)
  simp only [hfb, hmem, hbase, hx, hy] at hupix huflag
  refine ⟨u, hu, fun px py hpx hpy => ?_, fun hclear ⟨k, hk, hrow⟩ => huflag.2 ?_⟩
  · rw [hupix px py hpx hpy, htpix px py hpx hpy, Bool.xor_assoc, Bool.xor_self, Bool.xor_false]
  · obtain ⟨px, py, hpx, hpy, hbit⟩ := exists_spriteBit (s.reg x) (s.reg y) (by omega : n.val ≤ 32) hk hrow
    have hwas : s.fb.pixel px py = false := Bool.eq_false_iff.2 fun hset =>
      absurd (hclear.symm.trans (htflag.2 ⟨px, py, hpx, hpy, hset, hbit⟩)) (by decide)
    exact ⟨px, py, hpx, hpy, by rw [htpix px py hpx hpy, hwas, hbit]; rfl, hbit⟩

/-- Settles O51: the display of 00E0 is the blank one. -/
theorem clearDisplay : Obligations.ClearDisplay := by
  unfold Obligations.ClearDisplay
  exact ⟨fun _ => decode_clear, fun und s => ⟨_, rfl, fun px py _ _ => s.fb.pixel_clear px py, rfl, fun _ => rfl⟩⟩

/-- Settles O52: on the display itself the wrapped coordinates (`Framebuffer.pixel_toggle`) are the plain ones. -/
theorem toggleXorsOnePixel : Obligations.ToggleXorsOnePixel := by
  unfold Obligations.ToggleXorsOnePixel
  intro fb px py b
  refine ⟨?_, fun qx qy hqx hqy => ?_⟩
  · rw [fb.toggle_collided, fb.pixel_mod, Bool.and_eq_true]
  · rw [fb.pixel_toggle, Nat.mod_eq_of_lt hqx, Nat.mod_eq_of_lt hqy]
    split
    · next h => rw [decide_eq_true h, Bool.true_and]
    · next h => rw [decide_eq_false h, Bool.false_and, Bool.xor_false]

end Machine

end Sys2Proof
end

section
/-!
SUPPORT. Keys and timers (45_keys_timers.md R230 to R237): the words of the timer instructions, the key skips in the
numbers of the keys, the frames of the timers, and a cycle whose execute phase left the core running.
-/

namespace Sys2Proof

/-! ## The words of the timer instructions (30_encoding.md R98) -/

section TimerWords

variable {w : Word}

theorem decode_readDelay (ho : opOf w = 0xF#4) (hn : nnOf w = 0x07#8) : decode w = .ok (.opFx07 (xOf w)) := by
  simp only [decode_familyF ho, decodeFamilyF, hn]

theorem decode_setDelay (ho : opOf w = 0xF#4) (hn : nnOf w = 0x15#8) : decode w = .ok (.opFx15 (xOf w)) := by
  simp only [decode_familyF ho, decodeFamilyF, hn]

theorem decode_setSound (ho : opOf w = 0xF#4) (hn : nnOf w = 0x18#8) : decode w = .ok (.opFx18 (xOf w)) := by
  simp only [decode_familyF ho, decodeFamilyF, hn]

end TimerWords

namespace Machine

section KeysTimers

variable {s u : State} {x : RegIdx}

/-! ## The key skips -/

/-- R231: with the number of a key in `V[x]`, the skip is taken on that key's level. -/
theorem exec_opEx9E_key (und : BitVec 4) {k : Key} (hk : (s.reg x).toNat = k.val) :
    exec (.opEx9E x und) s = .next (s.skipIf s.input.keys[k]) := by
  rw [exec_opEx9E_ok und (hk ▸ k.isLt)]
  simp only [hk, Fin.getElem_fin]

/-- R232: with the number of a key in `V[x]`, the skip is taken on the complement of that key's level. -/
theorem exec_opExA1_key (und : BitVec 4) {k : Key} (hk : (s.reg x).toNat = k.val) :
    exec (.opExA1 x und) s = .next (s.skipIf (!s.input.keys[k])) := by
  rw [exec_opExA1_ok und (hk ▸ k.isLt)]
  simp only [hk, Fin.getElem_fin]

/-- R148: a skip on the complement of a condition goes on where the skip on it would not. -/
theorem State.pc_skipIf_not (s : State) (c : Bool) :
    (s.skipIf (!c)).pc = if c = true then s.pc else s.pc + 2#16 := by
  cases c <;> rfl

/-- R231, R232: the execute phase of a key skip, on the level or on its complement, whose number is no key's. -/
theorem complete_keyDown_failedAt {b : Byte} (g : Bool → State) (h : 15 < b.toNat) :
    ∃ t, s.complete ((s.keyDown b).map g) = .next t ∧
      FailedAt s t (s.pc - 2#16) 2#3 (BitVec.ofNat 16 b.toNat) := by
  rw [State.keyDown_error h, Except.map, State.complete_error, BitVec.ofNat_toNat]
  exact ⟨_, rfl, failedAt_raise s _ _⟩

/-! ## The frames of the timers -/

theorem onlyDelayTimer_setDt (s : State) (b : Byte) : OnlyDelayTimer s { s with dt := b } := ⟨rfl, fun _ => rfl⟩

theorem onlySoundTimer_setSt (s : State) (b : Byte) : OnlySoundTimer s { s with st := b } := ⟨rfl, fun _ => rfl⟩

/-! ## The cycle -/

/-- R120: every cycle request is answered by a next state. -/
theorem step_next (s : State) : ∃ t, step s = .next t := by
  cases hr : s.run with
  | faulted => exact ⟨s, step_faulted hr⟩
  | running =>
    obtain hp | hp := Nat.lt_or_ge 0x0FFE s.pc.toNat
    · exact ⟨_, step_fetch_error hr hp⟩
    cases hd : decode (wordOfBytes (s.mem.read s.pc.toNat) (s.mem.read (s.pc.toNat + 1))) with
    | error r => exact ⟨_, step_noHandler hr hp rfl hd⟩
    | ok i =>
      obtain ⟨u, hu⟩ := exec_next i s.advance
      exact ⟨_, step_run hr hp hd hu⟩

/-- R121, R126: a cycle whose execute phase leaves the core running ends in the timer tick. -/
theorem step_completed {i : Instr} (hr : s.run = .running) (hp : s.pc.toNat ≤ 0x0FFE)
    (hd : decode (wordOfBytes (s.mem.read s.pc.toNat) (s.mem.read (s.pc.toNat + 1))) = .ok i)
    (hu : exec i s.advance = .next u) (hrun : u.run = .running) :
    step s = .next (u.finish (wordOfBytes (s.mem.read s.pc.toNat) (s.mem.read (s.pc.toNat + 1))) none) := by
  rw [step_run hr hp hd hu, State.endCycle_running _ hrun]

/-- R233: `PC` moved back by a waiting Fx0A is where the cycle began, so its execute phase leaves no trace. -/
theorem exec_opFx0A_advance (x : RegIdx) (h : s.input.anyKey = none) : exec (.opFx0A x) s.advance = .next s := by
  have hpc : s.advance.pc - 2#16 = s.pc := by rw [State.pc_advance, BitVec.add_sub_cancel]
  rw [exec_opFx0A_none x (s := s.advance) h, hpc]
  rfl

/-- R236: `TONE` after the tick, in the count before it. -/
theorem State.tone_finish (s : State) (w : Word) (e : Option Word) :
    (s.finish w e).tone = true ↔ 2 ≤ s.st.toNat := by
  rw [State.tone, decide_eq_true_eq, State.st_finish, tickTimer_toNat]
  omega

end KeysTimers

/-! ## The statements -/

/-- Settles O55: the two results of the key test, a level to skip on and the key number's fatal error. -/
theorem keySkipsTestTheKeyLevel : Obligations.KeySkipsTestTheKeyLevel := by
  unfold Obligations.KeySkipsTestTheKeyLevel
  refine fun x und s => ⟨fun k hk => ⟨?_, ?_⟩, fun h => ⟨?_, ?_⟩⟩
  · exact ⟨_, exec_opEx9E_key und hk, s.pc_skipIf _, onlyPc_skipIf s _⟩
  · exact ⟨_, exec_opExA1_key und hk, s.pc_skipIf_not _, onlyPc_skipIf s _⟩
  · exact complete_keyDown_failedAt _ h
  · exact complete_keyDown_failedAt _ h

/-- Settles O56: a register write of the key's number, or a stall: `PC` is back where the cycle began, and the cycle is
its end alone (`State.finish_eq`). -/
theorem waitForKeyStallsByRewindingPc : Obligations.WaitForKeyStallsByRewindingPc := by
  unfold Obligations.WaitForKeyStallsByRewindingPc
  refine fun x s => ⟨fun k hk => ?_, fun hnone => ⟨?_, fun hr hp hd => ?_⟩⟩
  · have hbyte : (BitVec.ofNat 8 k.val).toNat = k.val := by
      rw [BitVec.toNat_ofNat]
      omega
    exact ⟨_, exec_opFx0A_some x hk, by rw [State.reg_setReg_same, hbyte], setReg_frame s x _⟩
  · exact ⟨_, exec_opFx0A_none x hnone, rfl, onlyPc_setPc s _⟩
  · refine ⟨_, step_completed hr hp hd (exec_opFx0A_advance x hnone) hr, s.pc_finish _ _, ?_, ?_, ?_, fun a => ?_, ?_⟩
    · rw [State.run_finish, hr]
    · rw [State.dt_finish, tickTimer_toNat]
    · rw [State.st_finish, tickTimer_toNat]
    · rw [State.mem_finish]
    · simpa using s.finish_eq _ none

/-- Settles O57: each execute phase writes one register or one timer, and the end of the cycle ticks what it left. -/
theorem timerInstructionsMoveTheCount : Obligations.TimerInstructionsMoveTheCount := by
  unfold Obligations.TimerInstructionsMoveTheCount
  refine ⟨fun _ => decode_readDelay, fun _ => decode_setDelay, fun _ => decode_setSound, fun x s =>
    ⟨?_, ?_, ?_, fun hr hp => ?_⟩⟩
  · exact ⟨_, rfl, s.reg_setReg_same x _, setReg_frame s x _⟩
  · exact ⟨_, rfl, rfl, onlyDelayTimer_setDt s _⟩
  · exact ⟨_, rfl, rfl, onlySoundTimer_setSt s _⟩
  · obtain ⟨t, ht⟩ := step_next s
    refine ⟨t, ht, fun hd => ?_, fun hd => ?_, fun hd => ?_⟩ <;>
      obtain rfl := Host.Outcome.next.inj (ht.symm.trans (step_completed hr hp hd rfl hr))
    · exact ⟨by rw [State.reg_finish, State.reg_setReg_same, State.dt_advance],
        by rw [State.dt_finish, tickTimer_toNat, State.dt_setReg, State.dt_advance]⟩
    · rw [State.dt_finish, tickTimer_toNat, State.reg_advance]
    · exact ⟨by rw [State.st_finish, tickTimer_toNat, State.reg_advance],
        by rw [State.tone_finish, State.reg_advance]⟩

end Machine

end Sys2Proof
end

section
/-!
SUPPORT. Fatal errors (60_exceptions.md R252): which instructions can take one as they execute, read off `Effect`.
-/

namespace Sys2Proof.Machine

/-- R252: of the effects, the fatal error of a listed instruction alone changes the run state. -/
theorem Effect.run_eq {s t : State} {i : Instr} (h : Effect s i t) (hi : i.canFail = false) : t.run = s.run := by
  cases h with
  | fault f hf => simp [hi] at hf
  | _ => rfl

/-- Settles O14: an instruction that cannot fail leaves the run state as it found it. -/
theorem onlyListedInstructionsFail : Obligations.OnlyListedInstructionsFail := by
  unfold Obligations.OnlyListedInstructionsFail
  intro i s hr hi
  obtain ⟨t, ht, he⟩ := exec_effect i s
  exact ⟨t, ht, (he.run_eq hi).trans hr⟩

end Sys2Proof.Machine
end

section
/-!
SUPPORT. Reset and hazards (70_reset_and_hazards.md R293, R303): the ROM load by the length of the ROM, and the
answer to every cycle request.
-/

namespace Sys2Proof.Machine

/-! ## The ROM load (R293) -/

/-- 3584 is the room from 0x200 to the end of memory. -/
theorem State.loadRom_of_fits (s : State) {rom : List Byte} (h : rom.length ≤ 3584) :
    s.loadRom rom = ({ s with mem := s.mem.writeBytes 0x200 rom }, .loaded) :=
  if_neg (Nat.not_lt.2 h)

theorem State.loadRom_of_tooLong (s : State) {rom : List Byte} (h : 3584 < rom.length) :
    s.loadRom rom = (s, .resourceError rom.length) :=
  if_pos h

/-! ## The statements -/

/-- Settles O11: no case of the cycle answers a fault or a refusal (`step_next`). -/
theorem everyCycleRequestCompletes : Obligations.EveryCycleRequestCompletes := by
  unfold Obligations.EveryCycleRequestCompletes
  exact step_next

/-- Settles O59: a ROM that fits ends at 4096 or below, so the laws of `Memory.writeBytes` hold of it. -/
theorem romLoadPlacesTheBytes : Obligations.RomLoadPlacesTheBytes := by
  unfold Obligations.RomLoadPlacesTheBytes
  refine fun s rom => ⟨fun hfit hm => ?_, s.loadRom_of_tooLong⟩
  have hend : 0x200 + rom.length ≤ 4096 := by omega
  rw [s.loadRom_of_fits hfit]
  exact ⟨rfl, Memory.read_writeBytes_inside hm 0x200 rom hend,
    ⟨rfl, s.mem.read_writeBytes_outside 0x200 rom⟩, Memory.wf_writeBytes hm 0x200 rom hend⟩

end Sys2Proof.Machine
end
